-- ==== Sys2Proof/Word.lean ====
section
/-!
DEFINITION. The word types of the block (spec/00_scope.md R7, R8): an 8-bit byte, a 16-bit word (instruction
words, I, pc, stack slots), and the fields of an instruction word (spec/30_encoding.md R71). Every value is
unsigned (R8, R73).
-/
namespace Sys2Proof

/-- A memory cell, a general register, a timer, an 8-bit immediate. -/
abbrev Byte := BitVec 8

/-- An instruction word, I, pc, a stack slot (R24, R25, R26, R70). -/
abbrev Word := BitVec 16

/-- A 4-bit field: a register index, a sprite height, a sub-operation (R71). -/
abbrev Nibble := BitVec 4

/-- A 12-bit address field `nnn` (R71). -/
abbrev Addr12 := BitVec 12

/-- One bit per hex key, bit k for key k (spec/40_dispatch.md R101). -/
abbrev KeySet := BitVec 16

end Sys2Proof
end

