-- ==== Sys2Proof/Syntax.lean ====
section
/-!
DEFINITION. The 34 instructions, one constructor per row of spec/opcode_table.json, in the table's order. A
constructor holds every bit of its word that its row does not fix: the fields of spec/30_encoding.md R71, and, as
`ign`, the bits that R72 calls ignored, so that the word can be told from the instruction (the error record of a
fault needs it, spec/60_exceptions.md R231; log entry 7).
-/
namespace Sys2Proof

inductive Instr where
  /-- `0--0` CLS, clear screen (R130); `ign` is `w[11:4]`. -/
  | cls (ign : Byte)
  /-- `0--E` RET, return from subroutine (R131); `ign` is `w[11:4]`. -/
  | ret (ign : Byte)
  /-- `1nnn` JP nnn (R132). -/
  | jp (nnn : Addr12)
  /-- `2nnn` CALL nnn (R133). -/
  | call (nnn : Addr12)
  /-- `3xkk` SE Vx, kk (R134). -/
  | seImm (x : Nibble) (nn : Byte)
  /-- `4xkk` SNE Vx, kk (R135). -/
  | sneImm (x : Nibble) (nn : Byte)
  /-- `5xy-` SE Vx, Vy (R136); `ign` is `w[3:0]`. -/
  | seReg (x y : Nibble) (ign : Nibble)
  /-- `6xkk` LD Vx, kk (R152). -/
  | ldImm (x : Nibble) (nn : Byte)
  /-- `7xkk` ADD Vx, kk (R153). -/
  | addImm (x : Nibble) (nn : Byte)
  /-- `8xy0` LD Vx, Vy (R154). -/
  | ldReg (x y : Nibble)
  /-- `8xy1` OR Vx, Vy (R155). -/
  | orReg (x y : Nibble)
  /-- `8xy2` AND Vx, Vy (R156). -/
  | andReg (x y : Nibble)
  /-- `8xy3` XOR Vx, Vy (R157). -/
  | xorReg (x y : Nibble)
  /-- `8xy4` ADD Vx, Vy with carry (R158). -/
  | addReg (x y : Nibble)
  /-- `8xy5` SUB Vx, Vy with not-borrow (R159). -/
  | sub (x y : Nibble)
  /-- `8xy6` SHR Vx (R160); `y` is decoded but not read. -/
  | shr (x y : Nibble)
  /-- `8xy7` SUBN Vx, Vy (R161). -/
  | subn (x y : Nibble)
  /-- `8xyE` SHL Vx (R162); `y` is decoded but not read. -/
  | shl (x y : Nibble)
  /-- `9xy-` SNE Vx, Vy (R137); `ign` is `w[3:0]`. -/
  | sneReg (x y : Nibble) (ign : Nibble)
  /-- `Annn` LD I, nnn (R170). -/
  | ldI (nnn : Addr12)
  /-- `Bnnn` JP V0, nnn (R171). -/
  | jpV0 (nnn : Addr12)
  /-- `Cxkk` RND Vx, kk (R172). -/
  | rnd (x : Nibble) (nn : Byte)
  /-- `Dxyn` DRW Vx, Vy, n (R181). -/
  | drw (x y n : Nibble)
  /-- `Ex9E` SKP Vx (R200). -/
  | skp (x : Nibble)
  /-- `ExA1` SKNP Vx (R201). -/
  | sknp (x : Nibble)
  /-- `Fx07` LD Vx, DT (R202). -/
  | ldVxDt (x : Nibble)
  /-- `Fx0A` LD Vx, K (R203). -/
  | ldVxK (x : Nibble)
  /-- `Fx15` LD DT, Vx (R204). -/
  | ldDtVx (x : Nibble)
  /-- `Fx18` LD ST, Vx (R205). -/
  | ldStVx (x : Nibble)
  /-- `Fx1E` ADD I, Vx (R206). -/
  | addI (x : Nibble)
  /-- `Fx29` LD F, Vx (R207). -/
  | ldF (x : Nibble)
  /-- `Fx33` LD B, Vx (R208). -/
  | ldB (x : Nibble)
  /-- `Fx55` LD [I], Vx (R209). -/
  | ldMemVx (x : Nibble)
  /-- `Fx65` LD Vx, [I] (R210). -/
  | ldVxMem (x : Nibble)
  deriving DecidableEq, Repr

end Sys2Proof
end

