-- ==== Sys2Proof/WellFormed.lean ====
section
/-!
DEFINITION. Well-formedness, of words and of instructions.

A word is legal when its family has no secondary dispatch or its sub-operation stands in the family's table
(spec/30_encoding.md R80). This is written from R80's own list, apart from the decoder, so that the two can be
held against each other.

An instruction's fields are bit vectors of the width its encoding gives them (R71), so every instruction stands
for exactly one word and none has an operand out of range. What can be ill-formed is its SPELLING: R84 says that
an assembler emits ignored bits as 0, and `y` of SHR and SHL as 0 in the spelling without Vy.
-/
namespace Sys2Proof

/-- The bits `w[hi:lo]` as a number (R8), for `hi = lo + width - 1`. -/
def bitField (w : Word) (lo width : Nat) : Nat := (w.toNat >>> lo) % 2 ^ width

/-- Family 0 with `n` in {0, E} (R75, R80). -/
def legalFamily0 (w : Word) : Bool := [0x0, 0xE].contains (bitField w 0 4)

/-- Family 8 with `n` in {0..7, E} (R76, R80). -/
def legalFamily8 (w : Word) : Bool := [0, 1, 2, 3, 4, 5, 6, 7, 0xE].contains (bitField w 0 4)

/-- Family E with `nn` in {9E, A1} (R77, R80). -/
def legalFamilyE (w : Word) : Bool := [0x9E, 0xA1].contains (bitField w 0 8)

/-- Family F with `nn` in the nine values of R78 (R80). -/
def legalFamilyF (w : Word) : Bool :=
  [0x07, 0x0A, 0x15, 0x18, 0x1E, 0x29, 0x33, 0x55, 0x65].contains (bitField w 0 8)

/-- The word is one of the 34 instructions and no decode error (R80, R82). -/
def legalWord (w : Word) : Bool :=
  if bitField w 12 4 = 0x0 then legalFamily0 w
  else if bitField w 12 4 = 0x8 then legalFamily8 w
  else if bitField w 12 4 = 0xE then legalFamilyE w
  else if bitField w 12 4 = 0xF then legalFamilyF w
  else true

/-- The spelling an assembler emits (R84): ignored bits 0, and `y` of SHR and SHL 0. -/
def Instr.wellFormed : Instr → Bool
  | .cls ign => ign = 0
  | .ret ign => ign = 0
  | .seReg _ _ ign => ign = 0
  | .sneReg _ _ ign => ign = 0
  | .shr _ y => y = 0
  | .shl _ y => y = 0
  | .jp _ => true
  | .call _ => true
  | .seImm _ _ => true
  | .sneImm _ _ => true
  | .ldImm _ _ => true
  | .addImm _ _ => true
  | .ldReg _ _ => true
  | .orReg _ _ => true
  | .andReg _ _ => true
  | .xorReg _ _ => true
  | .addReg _ _ => true
  | .sub _ _ => true
  | .subn _ _ => true
  | .ldI _ => true
  | .jpV0 _ => true
  | .rnd _ _ => true
  | .drw _ _ _ => true
  | .skp _ => true
  | .sknp _ => true
  | .ldVxDt _ => true
  | .ldVxK _ => true
  | .ldDtVx _ => true
  | .ldStVx _ => true
  | .addI _ => true
  | .ldF _ => true
  | .ldB _ => true
  | .ldMemVx _ => true
  | .ldVxMem _ => true

end Sys2Proof
end

