-- ==== Sys2Proof/Decode.lean ====
section
/-!
DEFINITION. The decoder and, after it, the encoder (spec/30_encoding.md R70 to R83). Decoding is a total, pure
function of the word (R83): primary dispatch on the top nibble (R74), a second dispatch inside families 0, 8, E and
F (R75 to R78), and a decode error, by name, for every sub-operation outside the family's table (R80).
-/
namespace Sys2Proof

/-! ## Fields (R71) -/

/-- `op = w[15:12]`. -/
def opField (w : Word) : Nibble := w.extractLsb' 12 4
/-- `x = w[11:8]`. -/
def xField (w : Word) : Nibble := w.extractLsb' 8 4
/-- `y = w[7:4]`. -/
def yField (w : Word) : Nibble := w.extractLsb' 4 4
/-- `n = w[3:0]`. -/
def nField (w : Word) : Nibble := w.extractLsb' 0 4
/-- `nn = w[7:0]`. -/
def nnField (w : Word) : Byte := w.extractLsb' 0 8
/-- `nnn = w[11:0]`. -/
def nnnField (w : Word) : Addr12 := w.extractLsb' 0 12
/-- The ignored bits `w[11:4]` of format F0 (R72). -/
def ignF0Field (w : Word) : Byte := w.extractLsb' 4 8

/-! ## Decoding -/

/-- Why a word, or a list of bytes, is no instruction (R80). -/
inductive DecodeError where
  /-- Family 0 with `n` outside {0, E} (R75). -/
  | family0 (n : Nibble)
  /-- Family 8 with `n` outside {0..7, E} (R76). -/
  | family8 (n : Nibble)
  /-- Family E with `nn` outside {9E, A1} (R77). -/
  | familyE (nn : Byte)
  /-- Family F with `nn` outside the nine values of R78. -/
  | familyF (nn : Byte)
  /-- Fewer than the two bytes of a word (R70). -/
  | truncated
  deriving DecidableEq, Repr

/-- Secondary dispatch of family 0, on the low nibble alone (R75). -/
def decode0 (w : Word) : Except DecodeError Instr :=
  match (nField w).toNat with
  | 0x0 => .ok (.cls (ignF0Field w))
  | 0xE => .ok (.ret (ignF0Field w))
  | _ => .error (.family0 (nField w))

/-- Secondary dispatch of family 8, on the low nibble (R76). -/
def decode8 (w : Word) : Except DecodeError Instr :=
  match (nField w).toNat with
  | 0x0 => .ok (.ldReg (xField w) (yField w))
  | 0x1 => .ok (.orReg (xField w) (yField w))
  | 0x2 => .ok (.andReg (xField w) (yField w))
  | 0x3 => .ok (.xorReg (xField w) (yField w))
  | 0x4 => .ok (.addReg (xField w) (yField w))
  | 0x5 => .ok (.sub (xField w) (yField w))
  | 0x6 => .ok (.shr (xField w) (yField w))
  | 0x7 => .ok (.subn (xField w) (yField w))
  | 0xE => .ok (.shl (xField w) (yField w))
  | _ => .error (.family8 (nField w))

/-- Secondary dispatch of family E, on the low byte (R77). -/
def decodeE (w : Word) : Except DecodeError Instr :=
  match (nnField w).toNat with
  | 0x9E => .ok (.skp (xField w))
  | 0xA1 => .ok (.sknp (xField w))
  | _ => .error (.familyE (nnField w))

/-- Secondary dispatch of family F, on the low byte (R78). -/
def decodeF (w : Word) : Except DecodeError Instr :=
  match (nnField w).toNat with
  | 0x07 => .ok (.ldVxDt (xField w))
  | 0x0A => .ok (.ldVxK (xField w))
  | 0x15 => .ok (.ldDtVx (xField w))
  | 0x18 => .ok (.ldStVx (xField w))
  | 0x1E => .ok (.addI (xField w))
  | 0x29 => .ok (.ldF (xField w))
  | 0x33 => .ok (.ldB (xField w))
  | 0x55 => .ok (.ldMemVx (xField w))
  | 0x65 => .ok (.ldVxMem (xField w))
  | _ => .error (.familyF (nnField w))

/-- The decoder (R74, R83). The last arm is family F: a nibble is at most 15. -/
def decode (w : Word) : Except DecodeError Instr :=
  match (opField w).toNat with
  | 0x0 => decode0 w
  | 0x1 => .ok (.jp (nnnField w))
  | 0x2 => .ok (.call (nnnField w))
  | 0x3 => .ok (.seImm (xField w) (nnField w))
  | 0x4 => .ok (.sneImm (xField w) (nnField w))
  | 0x5 => .ok (.seReg (xField w) (yField w) (nField w))
  | 0x6 => .ok (.ldImm (xField w) (nnField w))
  | 0x7 => .ok (.addImm (xField w) (nnField w))
  | 0x8 => decode8 w
  | 0x9 => .ok (.sneReg (xField w) (yField w) (nField w))
  | 0xA => .ok (.ldI (nnnField w))
  | 0xB => .ok (.jpV0 (nnnField w))
  | 0xC => .ok (.rnd (xField w) (nnField w))
  | 0xD => .ok (.drw (xField w) (yField w) (nField w))
  | 0xE => decodeE w
  | _ => decodeF w

/-! ## Bytes (R56, R70) -/

/-- The big-endian word of two bytes, the first at the lower address: `{hi, lo}` (R56). -/
def wordOfBytes (hi lo : Byte) : Word := hi ++ lo

/-- The byte of a word that stands at the lower address. -/
def highByte (w : Word) : Byte := w.extractLsb' 8 8

/-- The byte of a word that stands at the higher address. -/
def lowByte (w : Word) : Byte := w.extractLsb' 0 8

/-- The instruction at the head of a list of bytes, with the bytes after it. -/
def decodeBytes : List Byte → Except DecodeError (Instr × List Byte)
  | hi :: lo :: rest =>
    match decode (wordOfBytes hi lo) with
    | .ok i => .ok (i, rest)
    | .error e => .error e
  | _ => .error .truncated

/-- The word of `nbits` bits that the host numbers as spec/opcode_table.json does; bits above are 0. -/
def tableWord (nbits w : Nat) : Word := BitVec.ofNat 16 (w % 2 ^ nbits)

/-- What the decoder reads from an instruction whose bits are `w`: its one word is laid out in memory order,
high byte first, and decoded. -/
def decodeTableWord (nbits w : Nat) : Option Instr :=
  match decodeBytes [highByte (tableWord nbits w), lowByte (tableWord nbits w)] with
  | .ok (i, _) => some i
  | .error _ => none

/-! ## Encoding -/

/-- Four nibbles, the first the most significant. -/
def word4 (a b c d : Nibble) : Word := a ++ b ++ c ++ d
/-- Family nibble, register, byte: formats XNN and XS. -/
def wordXnn (op x : Nibble) (nn : Byte) : Word := op ++ x ++ nn
/-- Family nibble and 12-bit address: format NNN. -/
def wordNnn (op : Nibble) (nnn : Addr12) : Word := op ++ nnn
/-- Format F0: family 0, the ignored byte, the sub-operation. -/
def wordF0 (ign : Byte) (n : Nibble) : Word := (0x0 : Nibble) ++ ign ++ n

/-- The word of an instruction, from the patterns of spec/opcode_table.json and R84. -/
def encode : Instr → Word
  | .cls ign => wordF0 ign 0x0
  | .ret ign => wordF0 ign 0xE
  | .jp nnn => wordNnn 0x1 nnn
  | .call nnn => wordNnn 0x2 nnn
  | .seImm x nn => wordXnn 0x3 x nn
  | .sneImm x nn => wordXnn 0x4 x nn
  | .seReg x y ign => word4 0x5 x y ign
  | .ldImm x nn => wordXnn 0x6 x nn
  | .addImm x nn => wordXnn 0x7 x nn
  | .ldReg x y => word4 0x8 x y 0x0
  | .orReg x y => word4 0x8 x y 0x1
  | .andReg x y => word4 0x8 x y 0x2
  | .xorReg x y => word4 0x8 x y 0x3
  | .addReg x y => word4 0x8 x y 0x4
  | .sub x y => word4 0x8 x y 0x5
  | .shr x y => word4 0x8 x y 0x6
  | .subn x y => word4 0x8 x y 0x7
  | .shl x y => word4 0x8 x y 0xE
  | .sneReg x y ign => word4 0x9 x y ign
  | .ldI nnn => wordNnn 0xA nnn
  | .jpV0 nnn => wordNnn 0xB nnn
  | .rnd x nn => wordXnn 0xC x nn
  | .drw x y n => word4 0xD x y n
  | .skp x => wordXnn 0xE x 0x9E
  | .sknp x => wordXnn 0xE x 0xA1
  | .ldVxDt x => wordXnn 0xF x 0x07
  | .ldVxK x => wordXnn 0xF x 0x0A
  | .ldDtVx x => wordXnn 0xF x 0x15
  | .ldStVx x => wordXnn 0xF x 0x18
  | .addI x => wordXnn 0xF x 0x1E
  | .ldF x => wordXnn 0xF x 0x29
  | .ldB x => wordXnn 0xF x 0x33
  | .ldMemVx x => wordXnn 0xF x 0x55
  | .ldVxMem x => wordXnn 0xF x 0x65

/-- The two bytes of an instruction in memory order (R56). -/
def encodeBytes (i : Instr) : List Byte := [highByte (encode i), lowByte (encode i)]

end Sys2Proof
end

