-- ==== Sys2Proof/Config.lean ====
section
/-!
DEFINITION. What an implementation or the host fixes, and the free values.

The four host inputs below have no body: nothing in Lean can compute or prove a value of one, so a statement that
reads one holds for every value (spec/93_implementation_defined.md I3 and I8; log entry 1). The argument is the
number of the host turn.
-/
namespace Sys2Proof

/-- Whether the host calls ClearDirty between the Cycle before turn `n` and that of turn `n` (R113, R116). -/
opaque Config.clearDirtyIn : Nat → Bool

/-- `keys_in` of turn `n` (R101, R105). -/
opaque Config.keysIn : Nat → KeySet

/-- `stop_in` of turn `n` (R101, R104). -/
opaque Config.stopIn : Nat → Bool

/-- `rand_in` of turn `n`, under no law (R117). -/
opaque Config.randIn : Nat → Byte

/-- The DEFAULT of the parameter FONT, the conventional hex font of spec/20_memory.md R64, digit by digit.
PRESUMED (the spec marks it as general knowledge and FONT as an open parameter), unsafe: only State.reset names
it, no statement may rest on it (log entry 4). -/
def Config.defaultFont : Vector Byte 80 :=
  #v[0xF0, 0x90, 0x90, 0x90, 0xF0,
     0x20, 0x60, 0x20, 0x20, 0x70,
     0xF0, 0x10, 0xF0, 0x80, 0xF0,
     0xF0, 0x10, 0xF0, 0x10, 0xF0,
     0x90, 0x90, 0xF0, 0x10, 0x10,
     0xF0, 0x80, 0xF0, 0x10, 0xF0,
     0xF0, 0x80, 0xF0, 0x90, 0xF0,
     0xF0, 0x10, 0x20, 0x40, 0x40,
     0xF0, 0x90, 0xF0, 0x90, 0xF0,
     0xF0, 0x90, 0xF0, 0x10, 0xF0,
     0xF0, 0x90, 0xF0, 0x90, 0x90,
     0xE0, 0x90, 0xE0, 0x90, 0xE0,
     0xF0, 0x80, 0x80, 0x80, 0xF0,
     0xE0, 0x90, 0x90, 0x90, 0xE0,
     0xF0, 0x80, 0xF0, 0x80, 0xF0,
     0xF0, 0x80, 0xF0, 0x80, 0x80]

end Sys2Proof
end

