-- ==== Sys2Proof/Machine/State.lean ====
section
/-!
DEFINITION. The state of the block, all of spec/10_state.md R20 as plain data, and its value after a successful
construction (R37). Two fields at the end are the model's own: the host's coming turns (log entries 1 and 2).
-/
namespace Sys2Proof.Machine

/-- Main memory (spec/20_memory.md R50, R52). `font` is `mem[0x000..0x04F]`, the 80 bytes that Construct copies
from FONT and that no instruction can write (R54). `cells` lists the bytes from 0x050 to 0xFFF, addresses strictly
rising, none equal to what an unlisted address reads as (log entry 10). -/
structure Memory where
  font : Vector Byte 80
  cells : List Host.Cell
  deriving DecidableEq, Repr

/-- The frame buffer in the row-word form of spec/44_draw.md R186: row y is one 64-bit word whose bit `63 - x` is
the pixel in column x (R28; log entry 9). -/
abbrev FrameBuffer := Vector (BitVec 64) 32

/-- The kinds of `err.kind` (spec/60_exceptions.md R230). -/
inductive ErrKind where
  /-- NONE, code 0: no fault, or a host stop. -/
  | noError
  /-- DECODE, code 1: the word is a decode error. -/
  | decode
  /-- STACK_OVERFLOW, code 2: CALL with SP = 16. -/
  | stackOverflow
  /-- STACK_UNDERFLOW, code 3: RET with SP = 0. -/
  | stackUnderflow
  /-- MEM_RANGE, code 4: an access above 0xFFF. -/
  | memRange
  /-- MEM_PROTECT, code 5: a write to the font region. -/
  | memProtect
  /-- OPERAND_RANGE, code 6: a key index or hex digit above 0xF. -/
  | operandRange
  /-- ROM_LOAD, code 7: Construct could not load the ROM. -/
  | romLoad
  deriving DecidableEq, Repr

/-- The error record (R33). -/
structure ErrRecord where
  kind : ErrKind
  pc : Word
  word : Option Word
  info : Nat
  deriving DecidableEq, Repr

/-- The handler state of R32; HALTED is `run = false`, whatever the mode. -/
inductive Mode where
  /-- READY: the next running cycle fetches and executes. -/
  | ready
  /-- AWAIT_KEY: FX0A is suspended, `ax` will receive the key, `prev` is the previous cycle's snapshot. -/
  | awaitKey (ax : Nibble) (prev : KeySet)
  deriving DecidableEq, Repr

/-- One turn of the host (spec/40_dispatch.md R101, R116): whether it calls ClearDirty, and then the three inputs
of its next Cycle. -/
structure HostTurn where
  clearDirty : Bool
  keysIn : KeySet
  stopIn : Bool
  randIn : Byte
  deriving DecidableEq, Repr

structure State where
  /-- `mem` (R50). -/
  mem : Memory
  /-- `V[0..15]` (R21); `V[15]` is VF (R22). -/
  v : Vector Byte 16
  /-- `I` (R24). -/
  i : Word
  /-- `pc` (R25). -/
  pc : Word
  /-- `stack[0..15]` (R26). -/
  stack : Vector Word 16
  /-- `SP`, 0..16 (R26). -/
  sp : Fin 17
  /-- `DT` (R27). -/
  dt : Byte
  /-- `ST` (R27). -/
  st : Byte
  /-- `fb` (R28). -/
  fb : FrameBuffer
  /-- `dirty` (R29). -/
  dirty : Bool
  /-- `keys[0..15]`, bit k for key k (R30). -/
  keys : KeySet
  /-- `run` (R31). -/
  run : Bool
  /-- `mode` (R32). -/
  mode : Mode
  /-- `err` (R33). -/
  err : ErrRecord
  /-- `sound_on` (R34). -/
  soundOn : Bool
  /-- The MODEL's own: the host turns to come, oldest first. After the last one the turns are the free values of
  Config (log entry 1). -/
  inputs : List HostTurn
  /-- The MODEL's own: the number of the next host turn, the argument of Config's free values. -/
  cycleNo : Nat
  deriving DecidableEq, Repr

/-- Why a step stops with a fault. THERE IS NO CONSTRUCTOR: every fault of the spec is a change of state (err
recorded, run cleared, R231) after which a Cycle does nothing (R103), so a step takes it to a NEXT state; and the
spec leaves no access or instruction without an effect. Safe: nothing is stopped that the block runs (log entry 5). -/
inductive Fault where
  deriving DecidableEq, Repr

/-- Why an instruction has no meaning. -/
inductive Refusal where
  /-- Raised by an arm of exec whose instruction is not modelled yet, with its mnemonic; no arm raises it now. Safe. -/
  | notModelled (mnemonic : String)
  deriving DecidableEq, Repr

/-- The outcome of a handler, of a cycle and of a step. -/
abbrev Result := Host.Outcome State Fault Refusal

/-- The state after a successful construction (R37) with FONT at its default (log entry 4) and an empty ROM
(R261: "The length may be 0"; log entry 2). -/
def State.reset : State where
  mem := { font := Config.defaultFont, cells := [] }
  v := Vector.replicate 16 0
  i := 0
  pc := 0x200
  stack := Vector.replicate 16 0
  sp := 0
  dt := 0
  st := 0
  fb := Vector.replicate 32 0
  dirty := false
  keys := 0
  run := true
  mode := .ready
  err := { kind := .noError, pc := 0, word := none, info := 0 }
  soundOn := false
  inputs := []
  cycleNo := 0

end Sys2Proof.Machine
end

