-- ==== Sys2Proof/Machine/Ops.lean ====
section
/-!
DEFINITION. The named operations over the state: memory with its checks (spec/20_memory.md R53 to R55), registers,
pc, stack, frame buffer, the one operation that takes a fault (spec/60_exceptions.md R231), and the parts of a cycle
and of the host interface that run no instruction (spec/40_dispatch.md R104 to R118).
-/
namespace Sys2Proof.Machine

/-! ## Memory as data -/

/-- The byte listed for address `a`, if one is. -/
def cellAt (a : Nat) : List Host.Cell → Option Byte
  | [] => none
  | (b, x) :: rest => if a = b then some x else cellAt a rest

/-- The list with `v` at `a`, where an unlisted address reads as `d`: sorted, and with no entry equal to `d`. -/
def putCell (d : Byte) (a : Nat) (v : Byte) : List Host.Cell → List Host.Cell
  | [] => if v = d then [] else [(a, v)]
  | (b, x) :: rest =>
    if a < b then (if v = d then (b, x) :: rest else (a, v) :: (b, x) :: rest)
    else if a = b then (if v = d then rest else (a, v) :: rest)
    else (b, x) :: putCell d a v rest

/-- What an address with no listed byte reads as: FONT in 0x000..0x04F, else the construction value 0 (R37, R52). -/
def Memory.unlisted (m : Memory) (a : Nat) : Byte := if h : a < 80 then m.font[a] else 0

/-- The byte at address `a` of 0x000..0xFFF. -/
def Memory.byteAt (m : Memory) (a : Nat) : Byte :=
  match cellAt a m.cells with
  | some b => b
  | none => m.unlisted a

/-- Memory with `v` at `a`, in canonical form. -/
def Memory.put (m : Memory) (a : Nat) (v : Byte) : Memory :=
  { m with cells := putCell (m.unlisted a) a v m.cells }

/-- The addresses rise strictly, from `lo` on, stay in `lo..0xFFF`, and no byte is 0. -/
def cellsWf : Nat → List Host.Cell → Bool
  | _, [] => true
  | lo, (a, x) :: rest => lo ≤ a && a ≤ 0xFFF && x != 0 && cellsWf (a + 1) rest

/-- The canonical form: listed addresses rise strictly within 0x050..0xFFF and no listed byte is what an unlisted
address there reads as (log entry 10). -/
def Memory.wf (m : Memory) : Bool := cellsWf 0x50 m.cells

/-! ## Faults -/

/-- What `raise Fault(kind, info)` carries (R9, R231). -/
structure Raised where
  kind : ErrKind
  info : Nat
  deriving DecidableEq, Repr

/-- TAKING A FAULT (R231): the record is written, `run` is cleared, nothing else changes. `word` is none when the
fetch raises it. There is no return from a fault (R235): only `construct` starts again. -/
def raiseFault (f : Raised) (word : Option Word) (s : State) : State :=
  { s with
    err := { kind := f.kind, pc := s.pc, word := word, info := f.info }
    run := false }

/-- The end of a handler that can fault. A fault is taken in the state BEFORE the instruction, so it is precise
(R10, R232): no write made on the way to it is kept. -/
def finish (w : Word) (s : State) : Except Raised State → Result
  | .ok t => .next t
  | .error f => .next (raiseFault f (some w) s)

/-- The code of a kind (R230). -/
def ErrKind.code : ErrKind → Nat
  | .noError => 0
  | .decode => 1
  | .stackOverflow => 2
  | .stackUnderflow => 3
  | .memRange => 4
  | .memProtect => 5
  | .operandRange => 6
  | .romLoad => 7

/-! ## Memory accesses -/

/-- CheckRead (R55). -/
def checkRead (lo hi : Nat) : Except Raised Unit :=
  if 0xFFF < hi then .error ⟨.memRange, max lo 0x1000⟩ else .ok ()

/-- CheckWrite (R55): the range check first, then the font's protection. -/
def checkWrite (lo hi : Nat) : Except Raised Unit :=
  if 0xFFF < hi then .error ⟨.memRange, max lo 0x1000⟩
  else if lo ≤ 0x04F then .error ⟨.memProtect, lo⟩
  else .ok ()

/-- MemRead (R53). -/
def memRead (a : Nat) (s : State) : Except Raised Byte :=
  if 0xFFF < a then .error ⟨.memRange, a⟩ else .ok (s.mem.byteAt a)

/-- MemWrite (R54). -/
def memWrite (a : Nat) (v : Byte) (s : State) : Except Raised State :=
  if 0xFFF < a then .error ⟨.memRange, a⟩
  else if a ≤ 0x04F then .error ⟨.memProtect, a⟩
  else .ok { s with mem := s.mem.put a v }

/-- `n` bytes from `base` up, each by MemRead. -/
def readBytes (base : Nat) : Nat → State → Except Raised (List Byte)
  | 0, _ => .ok []
  | n + 1, s =>
    match memRead base s with
    | .error f => .error f
    | .ok b =>
      match readBytes (base + 1) n s with
      | .error f => .error f
      | .ok bs => .ok (b :: bs)

/-- The bytes from `base` up, in order, each by MemWrite. -/
def writeBytes (base : Nat) : List Byte → State → Except Raised State
  | [], s => .ok s
  | b :: bs, s =>
    match memWrite base b s with
    | .error f => .error f
    | .ok t => writeBytes (base + 1) bs t

/-! ## Registers, pc, stack -/

/-- Read `V[x]` (R21). -/
def getV (x : Nibble) (s : State) : Byte := s.v[x.toNat]'x.isLt

/-- Write `V[x]` (R21). -/
def setV (x : Nibble) (b : Byte) (s : State) : State := { s with v := s.v.set x.toNat b x.isLt }

/-- Write VF, which is `V[15]` (R22). -/
def setVF (b : Byte) (s : State) : State := setV 15 b s

/-- `V[0]`, `V[1]`, … up to `V[x]`, in order. -/
def regsUpTo (x : Nibble) (s : State) : List Byte := s.v.toList.take (x.toNat + 1)

/-- `V[k] <- b` for the bytes in order, from `k` up. -/
def loadRegs : Nat → List Byte → State → State
  | _, [], s => s
  | k, b :: bs, s => loadRegs (k + 1) bs (setV (BitVec.ofNat 4 k) b s)

/-- `pc <- (pc + k) mod 2^16` (R25, R109). -/
def advancePc (k : Nat) (s : State) : State := { s with pc := BitVec.ofNat 16 (s.pc.toNat + k) }

/-- `pc <- target`, with no further advance (R109). -/
def jumpTo (target : Word) (s : State) : State := { s with pc := target }

/-- A skip (R109): over the next word when `c` holds, else to it. -/
def skipIf (c : Bool) (s : State) : State := if c then advancePc 4 s else advancePc 2 s

/-- The push of CALL (R133): STACK_OVERFLOW with SP = 16, else the value goes to `stack[SP]` and SP rises. -/
def pushStack (w : Word) (s : State) : Except Raised State :=
  if h : s.sp.val < 16 then
    .ok { s with stack := s.stack.set s.sp.val w h, sp := ⟨s.sp.val + 1, by omega⟩ }
  else .error ⟨.stackOverflow, 16⟩

/-- The pop of RET (R131): STACK_UNDERFLOW with SP = 0, else SP falls and the value is `stack[SP]`, which stays in
its slot (R26). -/
def popStack (s : State) : Except Raised (Word × State) :=
  if h : 0 < s.sp.val then
    .ok (s.stack[s.sp.val - 1]'(by omega), { s with sp := ⟨s.sp.val - 1, by omega⟩ })
  else .error ⟨.stackUnderflow, 0⟩

/-! ## Frame buffer -/

/-- The pixel `fb[px, py]` (R28, R186). -/
def pixel (fb : FrameBuffer) (px : Fin 64) (py : Fin 32) : Bool := fb[py.val].getLsbD (63 - px.val)

/-- `fb[px, py] <- fb[px, py] ^ 1`. -/
def flipPixel (fb : FrameBuffer) (px : Fin 64) (py : Fin 32) : FrameBuffer :=
  fb.set py.val (fb[py.val] ^^^ BitVec.twoPow 64 (63 - px.val))

/-- Every pixel 0. -/
def blankFrame : FrameBuffer := Vector.replicate 32 0

/-! ## The host's turn (log entries 1 and 3) -/

/-- The free turn number `n`. -/
def freeTurn (n : Nat) : HostTurn :=
  { clearDirty := Config.clearDirtyIn n, keysIn := Config.keysIn n
    stopIn := Config.stopIn n, randIn := Config.randIn n }

/-- The host's present turn: the oldest listed one, else a free one. -/
def turn (s : State) : HostTurn := s.inputs.headD (freeTurn s.cycleNo)

/-- The host turn that comes `k` turns after the present one (log entry 1). -/
def turnAfter (k : Nat) (s : State) : HostTurn := s.inputs[k]?.getD (freeTurn (s.cycleNo + k))

/-- The present turn is over. -/
def endTurn (s : State) : State := { s with inputs := s.inputs.tail, cycleNo := s.cycleNo + 1 }

/-- ClearDirty (R113). -/
def clearDirty (s : State) : State := { s with dirty := false }

/-- The host calls ClearDirty before its Cycle, or does not: `clearDirty s` or `s`, told apart in the one field. -/
def hostClear (s : State) : State := { s with dirty := s.dirty && !(turn s).clearDirty }

/-- ReadFramebuffer (R114): 2048 pixels, element `y * 64 + x` is `fb[x, y]`. -/
def readFramebuffer (s : State) : Vector Bool 2048 :=
  Vector.ofFn fun k => pixel s.fb ⟨k.val % 64, by omega⟩ ⟨k.val / 64, by omega⟩

/-- What ReadStatus returns (R115). -/
structure Status where
  run : Bool
  dirty : Bool
  soundOn : Bool
  err : ErrRecord
  deriving DecidableEq, Repr

/-- ReadStatus (R115). -/
def readStatus (s : State) : Status :=
  { run := s.run, dirty := s.dirty, soundOn := s.soundOn, err := s.err }

/-! ## Parts of a cycle that run no instruction -/

/-- The host stop (R104). -/
def stopRun (s : State) : State := { s with run := false, soundOn := false }

/-- The keypad refresh (R105). -/
def refreshKeys (s : State) : State := { s with keys := (turn s).keysIn }

/-- A timer's decrement (R27): by 1 while it is not 0. -/
def tick (t : Byte) : Byte := if t = 0 then 0 else t - 1

/-- The timer phase of a cycle that stays running (R110): `sound_on` tells whether ST was nonzero before its
decrement. -/
def timerPhase (s : State) : State :=
  { s with dt := tick s.dt, st := tick s.st, soundOn := s.st != 0 }

/-- The end of a cycle after its instruction or wait check: the timer phase if it still runs (R110), else sound off
and the timers kept (R111). -/
def closeCycle (s : State) : State := if s.run then timerPhase s else { s with soundOn := false }

/-- The lowest key of a set (R118: `min(rising)`). -/
def lowestKey (ks : KeySet) : Option Nat := (List.range 16).find? fun k => ks.getLsbD k

/-- The keys pressed now that were not pressed before (R118). -/
def risingKeys (keys prev : KeySet) : KeySet := keys &&& ~~~prev

/-- ResumeOrWait (R118). -/
def resumeOrWait (ax : Nibble) (prev : KeySet) (s : State) : State :=
  match lowestKey (risingKeys s.keys prev) with
  | some k => { advancePc 2 (setV ax (BitVec.ofNat 8 k) s) with mode := .ready }
  | none => { s with mode := .awaitKey ax s.keys }

/-- The fetch (R107): the big-endian word at `pc`, or MEM_RANGE. -/
def fetch (s : State) : Except Raised Word :=
  match checkRead s.pc.toNat (s.pc.toNat + 1) with
  | .error f => .error f
  | .ok () =>
    match memRead s.pc.toNat s with
    | .error f => .error f
    | .ok hi =>
      match memRead (s.pc.toNat + 1) s with
      | .error f => .error f
      | .ok lo => .ok (wordOfBytes hi lo)

/-- A function applied to the next state of a result. -/
def mapNext (f : State → State) : Result → Result
  | .next t => .next (f t)
  | .fault r => .fault r
  | .refused r => .refused r

/-! ## Construction (spec/70_reset_and_hazards.md) -/

/-- The ROM input of Construct (R101, R262). -/
inductive RomInput where
  /-- The host could not read the ROM. -/
  | readFailure
  /-- The bytes of the ROM. -/
  | bytes (b : List Byte)
  deriving DecidableEq, Repr

/-- The bytes copied to consecutive addresses from `base` up. -/
def copyBytes (base : Nat) : List Byte → Memory → Memory
  | [], m => m
  | b :: bs, m => copyBytes (base + 1) bs (m.put base b)

/-- LoadFail (R262). -/
def loadFail (info : Nat) (s : State) : State :=
  { s with err := { kind := .romLoad, pc := s.pc, word := none, info := info }, run := false }

/-- Load (R261). -/
def load (rom : RomInput) (s : State) : State :=
  match rom with
  | .readFailure => loadFail 0 s
  | .bytes b =>
    if 3584 < b.length then loadFail b.length s
    else { s with mem := copyBytes 0x200 b s.mem, run := true }

/-- Construct(FONT, rom) (R260): the block's only reset. -/
def construct (font : Vector Byte 80) (rom : RomInput) : State :=
  load rom { State.reset with mem := { font := font, cells := [] } }

end Sys2Proof.Machine
end

