-- ==== Sys2Proof/Machine/Flags.lean ====
section
/-!
DEFINITION. The flag values that instructions write to VF (spec/10_state.md R22, spec/42_alu.md R163). VF is the only
flag (R23). The collision flag is computed while a sprite is drawn (Draw.lean).
-/
namespace Sys2Proof.Machine

/-- A flag as the content of VF: 0 or 1. -/
def flagByte (b : Bool) : Byte := if b then 1 else 0

/-- The carry of 8XY4 (R158): the sum exceeds 255. -/
def carryFlag (a b : Byte) : Byte := flagByte (decide (255 < a.toNat + b.toNat))

/-- Not-borrow of `a - b` (R159, R161): 0 when `b > a`, else 1. -/
def notBorrowFlag (a b : Byte) : Byte := flagByte (!decide (a.toNat < b.toNat))

/-- The bit shifted out to the right (R160): bit 0 of the value before the shift. -/
def shiftedOutRight (a : Byte) : Byte := flagByte (a.getLsbD 0)

/-- The bit shifted out to the left (R162): bit 7 of the value before the shift. -/
def shiftedOutLeft (a : Byte) : Byte := flagByte (a.getLsbD 7)

/-- The overflow flag of FX1E (R206): the sum exceeds 0xFFF, the top of the address space. -/
def indexOverflow (i : Word) (v : Byte) : Byte := flagByte (decide (0xFFF < i.toNat + v.toNat))

/-- Every flag-writing family-8 operation (R151): Vx first, then VF, so the flag is what VF ends with when x = F;
then `pc + 2`. The operands were read before. -/
def setResultFlag (x : Nibble) (r flag : Byte) (s : State) : State := advancePc 2 (setVF flag (setV x r s))

end Sys2Proof.Machine
end

