-- ==== Sys2Proof/Machine/Alu.lean ====
section
/-!
DEFINITION. Register arithmetic and logic (spec/42_alu.md R150 to R163): immediate forms and family 8. No handler
here faults.
-/
namespace Sys2Proof.Machine

/-- LD Vx, nn (R152). -/
def execLdImm (x : Nibble) (nn : Byte) (s : State) : Result := .next (advancePc 2 (setV x nn s))

/-- ADD Vx, nn (R153): wraps, and writes no flag. -/
def execAddImm (x : Nibble) (nn : Byte) (s : State) : Result :=
  .next (advancePc 2 (setV x (getV x s + nn) s))

/-- LD Vx, Vy (R154): writes no flag. -/
def execLdReg (x y : Nibble) (s : State) : Result := .next (advancePc 2 (setV x (getV y s) s))

/-- OR Vx, Vy (R155): VF <- 0. -/
def execOrReg (x y : Nibble) (s : State) : Result :=
  .next (setResultFlag x (getV x s ||| getV y s) 0 s)

/-- AND Vx, Vy (R156): VF <- 0. -/
def execAndReg (x y : Nibble) (s : State) : Result :=
  .next (setResultFlag x (getV x s &&& getV y s) 0 s)

/-- XOR Vx, Vy (R157): VF <- 0. -/
def execXorReg (x y : Nibble) (s : State) : Result :=
  .next (setResultFlag x (getV x s ^^^ getV y s) 0 s)

/-- ADD Vx, Vy (R158): VF <- carry. -/
def execAddReg (x y : Nibble) (s : State) : Result :=
  .next (setResultFlag x (getV x s + getV y s) (carryFlag (getV x s) (getV y s)) s)

/-- SUB Vx, Vy (R159): VF <- not-borrow of Vx - Vy. -/
def execSub (x y : Nibble) (s : State) : Result :=
  .next (setResultFlag x (getV x s - getV y s) (notBorrowFlag (getV x s) (getV y s)) s)

/-- SHR Vx (R160): VF <- the bit shifted out. `y` is not read. -/
def execShr (x _y : Nibble) (s : State) : Result :=
  .next (setResultFlag x (getV x s >>> 1) (shiftedOutRight (getV x s)) s)

/-- SUBN Vx, Vy (R161): VF <- not-borrow of Vy - Vx. -/
def execSubn (x y : Nibble) (s : State) : Result :=
  .next (setResultFlag x (getV y s - getV x s) (notBorrowFlag (getV y s) (getV x s)) s)

/-- SHL Vx (R162): VF <- the bit shifted out. `y` is not read. -/
def execShl (x _y : Nibble) (s : State) : Result :=
  .next (setResultFlag x (getV x s <<< 1) (shiftedOutLeft (getV x s)) s)

end Sys2Proof.Machine
end

