-- ==== Sys2Proof/Machine/Operands.lean ====
section
/-!
DEFINITION. The operand forms (spec/30_encoding.md R73 and the handlers): everything is unsigned and zero-extended.
Registers and 8-bit immediates need nothing beyond `getV` and the field itself.
-/
namespace Sys2Proof.Machine

/-- A 12-bit address operand `nnn` as a 16-bit value (R73, R170). -/
def addrOperand (nnn : Addr12) : Word := nnn.setWidth 16

/-- The target of JP V0 (R171): `nnn` masked first, then V0 added; not masked afterwards. -/
def indexedTarget (nnn : Addr12) (s : State) : Word := BitVec.ofNat 16 (nnn.toNat + (getV 0 s).toNat)

/-- A hex digit or key index in Vx (R200, R201, R207): OPERAND_RANGE above 0xF. -/
def hexOperand (x : Nibble) (s : State) : Except Raised Nat :=
  if 0xF < (getV x s).toNat then .error ⟨.operandRange, (getV x s).toNat⟩ else .ok (getV x s).toNat

/-- The address of the memory operand, I as a natural number: `I + k` never wraps (R55). -/
def memBase (s : State) : Nat := s.i.toNat

/-- The address of the glyph of digit `d` (R65, R207). -/
def glyphAddr (d : Nat) : Word := BitVec.ofNat 16 (5 * d)

/-- The decimal digits of a byte: hundreds, tens, ones (R208). -/
def bcdDigits (v : Byte) : List Byte :=
  [BitVec.ofNat 8 (v.toNat / 100), BitVec.ofNat 8 (v.toNat / 10 % 10), BitVec.ofNat 8 (v.toNat % 10)]

/-- `keys[k] = 1` (R30). -/
def keyPressed (k : Nat) (s : State) : Bool := s.keys.getLsbD k

/-- I after a bulk store or load of `x + 1` bytes (R209, R210). -/
def indexAfter (x : Nibble) (s : State) : Word := BitVec.ofNat 16 (s.i.toNat + x.toNat + 1)

end Sys2Proof.Machine
end

