-- ==== Sys2Proof/Machine/Draw.lean ====
section
/-!
DEFINITION. Sprite draw (spec/44_draw.md R180 to R191), in the pixel form of R181, which is the normative one. The
row-word form of R186 stands at the end; it is not what the instruction calls, and a statement says that the two
agree.
-/
namespace Sys2Proof.Machine

/-- A frame buffer being drawn on, and the collision bit so far. -/
abbrev Canvas := FrameBuffer × Bool

/-- The column of sprite column `c` (R183): wraps at 64. -/
def spriteCol (x0 : Byte) (c : Nat) : Fin 64 := ⟨(x0.toNat + c) % 64, Nat.mod_lt _ (by decide)⟩

/-- The row of sprite row `r` (R183): wraps at 32. -/
def spriteRow (y0 : Byte) (r : Nat) : Fin 32 := ⟨(y0.toNat + r) % 32, Nat.mod_lt _ (by decide)⟩

/-- One set sprite bit (R185): a collision if the pixel is on, then the pixel is XORed. -/
def drawPixel (px : Fin 64) (py : Fin 32) (c : Canvas) : Canvas :=
  (flipPixel c.1 px py, c.2 || pixel c.1 px py)

/-- The columns `cs` of sprite row `b` at row `py`: bit `7 - c` is column `c` (R184). -/
def drawCols (x0 : Byte) (py : Fin 32) (b : Byte) : List Nat → Canvas → Canvas
  | [], cv => cv
  | c :: cs, cv =>
    drawCols x0 py b cs (if b.getLsbD (7 - c) then drawPixel (spriteCol x0 c) py cv else cv)

/-- The sprite's rows in order, from row `r` on. The rows were all read before the first pixel; R182 says that the
order of the reads cannot matter. -/
def drawRows (x0 y0 : Byte) : Nat → List Byte → Canvas → Canvas
  | _, [], cv => cv
  | r, b :: bs, cv =>
    drawRows x0 y0 (r + 1) bs (drawCols x0 (spriteRow y0 r) b [0, 1, 2, 3, 4, 5, 6, 7] cv)

/-- The sprite's bytes (R181, R182): MEM_RANGE over the whole range first, and no check at all with n = 0 (R189). -/
def spriteBytes (n : Nibble) (s : State) : Except Raised (List Byte) :=
  match (if n.toNat = 0 then .ok () else checkRead (memBase s) (memBase s + n.toNat - 1)) with
  | .error f => .error f
  | .ok () => readBytes (memBase s) n.toNat s

/-- The draw's writes (R180): frame buffer, VF, dirty, pc. -/
def putCanvas (cv : Canvas) (s : State) : State :=
  advancePc 2 (setVF (flagByte cv.2) { s with fb := cv.1, dirty := true })

/-- DRW Vx, Vy, n (R181). -/
def execDrw (x y n : Nibble) (s : State) : Result :=
  finish (encode (.drw x y n)) s <|
    match spriteBytes n s with
    | .error f => .error f
    | .ok rows => .ok (putCanvas (drawRows (getV x s) (getV y s) 0 rows (s.fb, false)) s)

/-! ## The frame-buffer word-write controller (R186) -/

/-- The 64-bit mask of a sprite row: the byte in bits 63..56, rotated right by the column. -/
def rowMask (x0 b : Byte) : BitVec 64 := (b ++ (0 : BitVec 56)).rotateRight (x0.toNat % 64)

/-- One sprite row as one read-modify-write of one row word. -/
def writeRowWord (x0 b : Byte) (py : Fin 32) (cv : Canvas) : Canvas :=
  (cv.1.set py.val (cv.1[py.val] ^^^ rowMask x0 b), cv.2 || (cv.1[py.val] &&& rowMask x0 b != 0))

/-- The whole sprite by row words. -/
def drawRowWords (x0 y0 : Byte) : Nat → List Byte → Canvas → Canvas
  | _, [], cv => cv
  | r, b :: bs, cv => drawRowWords x0 y0 (r + 1) bs (writeRowWord x0 b (spriteRow y0 r) cv)

end Sys2Proof.Machine
end

