-- ==== Sys2Proof/Machine/Flow.lean ====
section
/-!
DEFINITION. Family 0, jumps, calls and skips (spec/41_family0_flow.md R130 to R137).
-/
namespace Sys2Proof.Machine

/-- CLS (R130). `ign` is not read. -/
def execCls (_ign : Byte) (s : State) : Result :=
  .next (advancePc 2 { s with fb := blankFrame, dirty := true })

/-- RET (R131). `ign` is read only as part of the word that a fault records (log entry 7). -/
def execRet (ign : Byte) (s : State) : Result :=
  finish (encode (.ret ign)) s <|
    match popStack s with
    | .error f => .error f
    | .ok (ra, t) => .ok (advancePc 2 (jumpTo ra t))

/-- JP nnn (R132). -/
def execJp (nnn : Addr12) (s : State) : Result := .next (jumpTo (addrOperand nnn) s)

/-- CALL nnn (R133): the value pushed is the address of the CALL itself. -/
def execCall (nnn : Addr12) (s : State) : Result :=
  finish (encode (.call nnn)) s <|
    match pushStack s.pc s with
    | .error f => .error f
    | .ok t => .ok (jumpTo (addrOperand nnn) t)

/-- SE Vx, nn (R134). -/
def execSeImm (x : Nibble) (nn : Byte) (s : State) : Result := .next (skipIf (getV x s == nn) s)

/-- SNE Vx, nn (R135). -/
def execSneImm (x : Nibble) (nn : Byte) (s : State) : Result := .next (skipIf (getV x s != nn) s)

/-- SE Vx, Vy (R136). `ign` is not read. -/
def execSeReg (x y : Nibble) (_ign : Nibble) (s : State) : Result :=
  .next (skipIf (getV x s == getV y s) s)

/-- SNE Vx, Vy (R137). `ign` is not read. -/
def execSneReg (x y : Nibble) (_ign : Nibble) (s : State) : Result :=
  .next (skipIf (getV x s != getV y s) s)

end Sys2Proof.Machine
end

