-- ==== Sys2Proof/Machine/IndexMemory.lean ====
section
/-!
DEFINITION. Index arithmetic, font address, BCD and bulk memory (spec/45_keys_timers_memory.md R206 to R210).
-/
namespace Sys2Proof.Machine

/-- ADD I, Vx (R206): the sum stays in I mod 2^16, VF tells whether it passed 0xFFF; no fault. -/
def execAddI (x : Nibble) (s : State) : Result :=
  .next (advancePc 2 (setVF (indexOverflow s.i (getV x s))
    { s with i := BitVec.ofNat 16 (s.i.toNat + (getV x s).toNat) }))

/-- LD F, Vx (R207). -/
def execLdF (x : Nibble) (s : State) : Result :=
  finish (encode (.ldF x)) s <|
    match hexOperand x s with
    | .error f => .error f
    | .ok d => .ok (advancePc 2 { s with i := glyphAddr d })

/-- LD B, Vx (R208). -/
def execLdB (x : Nibble) (s : State) : Result :=
  finish (encode (.ldB x)) s <|
    match checkWrite (memBase s) (memBase s + 2) with
    | .error f => .error f
    | .ok () =>
      match writeBytes (memBase s) (bcdDigits (getV x s)) s with
      | .error f => .error f
      | .ok t => .ok (advancePc 2 t)

/-- LD [I], Vx (R209). -/
def execLdMemVx (x : Nibble) (s : State) : Result :=
  finish (encode (.ldMemVx x)) s <|
    match checkWrite (memBase s) (memBase s + x.toNat) with
    | .error f => .error f
    | .ok () =>
      match writeBytes (memBase s) (regsUpTo x s) s with
      | .error f => .error f
      | .ok t => .ok (advancePc 2 { t with i := indexAfter x s })

/-- LD Vx, [I] (R210). -/
def execLdVxMem (x : Nibble) (s : State) : Result :=
  finish (encode (.ldVxMem x)) s <|
    match checkRead (memBase s) (memBase s + x.toNat) with
    | .error f => .error f
    | .ok () =>
      match readBytes (memBase s) (x.toNat + 1) s with
      | .error f => .error f
      | .ok bs => .ok (advancePc 2 { loadRegs 0 bs s with i := indexAfter x s })

end Sys2Proof.Machine
end

