-- ==== Sys2Proof/Machine/IndexRandom.lean ====
section
/-!
DEFINITION. Index register, indexed jump and random (spec/43_index_random.md R170 to R172).
-/
namespace Sys2Proof.Machine

/-- LD I, nnn (R170). -/
def execLdI (nnn : Addr12) (s : State) : Result := .next (advancePc 2 { s with i := addrOperand nnn })

/-- JP V0, nnn (R171). -/
def execJpV0 (nnn : Addr12) (s : State) : Result := .next (jumpTo (indexedTarget nnn s) s)

/-- RND Vx, nn (R172): `rand_in` of this cycle, masked (R117). -/
def execRnd (x : Nibble) (nn : Byte) (s : State) : Result :=
  .next (advancePc 2 (setV x ((turn s).randIn &&& nn) s))

end Sys2Proof.Machine
end

