-- ==== Sys2Proof/Machine/Keys.lean ====
section
/-!
DEFINITION. The key skips and the key wait (spec/45_keys_timers_memory.md R200, R201, R203).
-/
namespace Sys2Proof.Machine

/-- SKP Vx (R200). -/
def execSkp (x : Nibble) (s : State) : Result :=
  finish (encode (.skp x)) s <|
    match hexOperand x s with
    | .error f => .error f
    | .ok k => .ok (skipIf (keyPressed k s) s)

/-- SKNP Vx (R201). -/
def execSknp (x : Nibble) (s : State) : Result :=
  finish (encode (.sknp x)) s <|
    match hexOperand x s with
    | .error f => .error f
    | .ok k => .ok (skipIf (!keyPressed k s) s)

/-- LD Vx, K (R203), its entry: the wait begins with this cycle's snapshot; pc and Vx are not written. The wait and
its completion are `resumeOrWait` (R118). -/
def execLdVxK (x : Nibble) (s : State) : Result := .next { s with mode := .awaitKey x s.keys }

end Sys2Proof.Machine
end

