-- ==== Sys2Proof/Machine/Timers.lean ====
section
/-!
DEFINITION. The timer instructions (spec/45_keys_timers_memory.md R202, R204, R205). The tick that follows in the
same cycle is `timerPhase` (R110, R267).
-/
namespace Sys2Proof.Machine

/-- LD Vx, DT (R202). -/
def execLdVxDt (x : Nibble) (s : State) : Result := .next (advancePc 2 (setV x s.dt s))

/-- LD DT, Vx (R204). -/
def execLdDtVx (x : Nibble) (s : State) : Result := .next (advancePc 2 { s with dt := getV x s })

/-- LD ST, Vx (R205). -/
def execLdStVx (x : Nibble) (s : State) : Result := .next (advancePc 2 { s with st := getV x s })

end Sys2Proof.Machine
end

