-- ==== Sys2Proof/Machine/Cycle.lean ====
section
/-!
DEFINITION. The cycle (spec/40_dispatch.md R102 to R112): stop check, keypad refresh, instruction or wait check,
timer phase. A host turn is an optional ClearDirty and one Cycle (log entry 3).
-/
namespace Sys2Proof.Machine

/-- ExecuteOne (R106): fetch, decode, execute. A decode error records the word, with info 0 (R230; log entry 6). -/
def executeOne (s : State) : Result :=
  match fetch s with
  | .error f => .next (raiseFault f none s)
  | .ok w =>
    match decode w with
    | .error _ => .next (raiseFault ⟨.decode, 0⟩ (some w) s)
    | .ok i => exec i s

/-- The instruction of a READY cycle, or the wait check of an AWAITING one (R102). -/
def runOrWait (s : State) : Result :=
  match s.mode with
  | .awaitKey ax prev => .next (resumeOrWait ax prev s)
  | .ready => executeOne s

/-- Cycle(keys_in, stop_in, rand_in) (R102), with the inputs of the present host turn. -/
def cycle (s : State) : Result :=
  if s.run then
    if (turn s).stopIn then .next (stopRun s)
    else mapNext closeCycle (runOrWait (refreshKeys s))
  else .next s

/-- One host turn. -/
def hostTurn (s : State) : Result := mapNext endTurn (cycle (hostClear s))

/-- Memory with a byte put at `a` from outside the machine, the font region included. -/
def Memory.poke (m : Memory) (a : Nat) (v : Byte) : Memory :=
  if h : a < 80 then { m with font := m.font.set a v h } else m.put a v

/-- A turn with no ClearDirty, no key, no stop and a zero draw. Only `placeWord` uses it (log entry 11). -/
def quietTurn : HostTurn := { clearDirty := false, keysIn := 0, stopIn := false, randIn := 0 }

/-- The state with the word `w` placed at `pc`, ready to be fetched by the very next turn: running, READY, and with
no stop in that turn, which must be a listed one. A `pc` above 0xFFE, where nothing can be fetched, becomes 0x200
(log entry 11). -/
def placeWord (w : Word) (s : State) : State :=
  let p : Nat := if s.pc.toNat ≤ 0xFFE then s.pc.toNat else 0x200
  { s with
    mem := (s.mem.poke p (highByte w)).poke (p + 1) (lowByte w)
    pc := BitVec.ofNat 16 p
    run := true
    mode := .ready
    inputs := { s.inputs.headD quietTurn with stopIn := false } :: s.inputs.tail }

end Sys2Proof.Machine
end

