-- ==== Sys2Proof/Machine/Step.lean ====
section
/-!
DEFINITION. The step of the machine: one host turn (spec/40_dispatch.md R101, R102).
-/
namespace Sys2Proof.Machine

/-- One turn of the host: an optional ClearDirty (R113), then one Cycle (R102). -/
def step (s : State) : Host.Outcome State Fault Refusal := hostTurn s

/-- The state with the instruction of table bits `w` placed where the next step fetches it. -/
def State.withFetchWord (s : State) (nbits w : Nat) : State := placeWord (tableWord nbits w) s

end Sys2Proof.Machine
end

