-- ==== Sys2Proof/Safety.lean ====
section
/-!
DEFINITION. What claims are stated in: the handler states of spec/40_dispatch.md R100, the invariants of the machine,
what an instruction's result is, and which instructions the spec lets do what.
-/
namespace Sys2Proof.Machine

/-! ## Handler states (R100) -/

/-- The three states of the handler state machine. -/
inductive HandlerState where
  | ready
  | awaiting
  | halted
  deriving DecidableEq, Repr

/-- READY, AWAITING or HALTED, from `run` and `mode` (R100). -/
def handlerState (s : State) : HandlerState :=
  if s.run then
    match s.mode with
    | .ready => .ready
    | .awaitKey _ _ => .awaiting
  else .halted

/-! ## Invariants -/

/-- The error record when there is no error (R37). -/
def noError : ErrRecord := { kind := .noError, pc := 0, word := none, info := 0 }

/-- The run flag, the error record and the sound agree: a running machine has no error (R31, R33), a halted one makes
no sound (R104, R111), a record of kind NONE is empty (R37), and a recorded fault's pc is where the machine still
stands (R231, R232). -/
def RunErrAgree (s : State) : Prop :=
  (s.run = true → s.err = noError) ∧
  (s.run = false → s.soundOn = false) ∧
  (s.err.kind = .noError → s.err = noError) ∧
  (s.err.kind ≠ .noError → s.err.pc = s.pc)

/-- The bounds of R25 and R131: pc reaches 0x10FE at most, every return address on the stack is one a CALL was
fetched at, and a waiting FX0A stands where it was fetched. -/
def PcBounded (s : State) : Prop :=
  s.pc.toNat ≤ 0x10FE ∧
  (∀ k : Fin 16, k.val < s.sp.val → s.stack[k.val].toNat ≤ 0xFFE) ∧
  (∀ ax prev, s.mode = .awaitKey ax prev → s.pc.toNat ≤ 0xFFE)

/-- The machine's invariant. -/
def Safe (s : State) : Prop := s.mem.wf = true ∧ RunErrAgree s ∧ PcBounded s

/-! ## Results and frames

`t = { s with f := t.f, … }` says that every piece of state but the named ones is what it was. -/

/-- `pc` moved on by `k` (R109). -/
def PcAdvanced (k : Nat) (s t : State) : Prop := t.pc.toNat = (s.pc.toNat + k) % 65536

/-- `V[x]` becomes `value`, pc moves on by 2, and nothing else changes: no other register, no flag. -/
def RegisterResult (x : Nibble) (value : Nat) (s t : State) : Prop :=
  (∀ r, (getV r t).toNat = if r = x then value else (getV r s).toNat) ∧
  PcAdvanced 2 s t ∧ t = { s with v := t.v, pc := t.pc }

/-- `V[x]` becomes `value` and VF becomes `flag`, which wins when x = F (R151); pc moves on by 2; nothing else
changes. -/
def FlaggedResult (x : Nibble) (value flag : Nat) (s t : State) : Prop :=
  (∀ r, (getV r t).toNat = if r = 15 then flag else if r = x then value else (getV r s).toNat) ∧
  PcAdvanced 2 s t ∧ t = { s with v := t.v, pc := t.pc }

/-- The state after a fault of instruction `i` (R231): the record and the run flag, nothing else. -/
def faulted (kind : ErrKind) (info : Nat) (i : Instr) (s : State) : State :=
  { s with err := { kind := kind, pc := s.pc, word := some (encode i), info := info }, run := false }

/-- Some set bit of the sprite of `DRW Vx, Vy, n` falls on the pixel in column `px`, row `py` (R181 to R184). -/
def SpriteSets (x y n : Nibble) (s : State) (px : Fin 64) (py : Fin 32) : Prop :=
  ∃ r c, r < n.toNat ∧ c < 8 ∧ (s.mem.byteAt (s.i.toNat + r)).getLsbD (7 - c) = true ∧
    px.val = ((getV x s).toNat + c) % 64 ∧ py.val = ((getV y s).toNat + r) % 32

/-- Key `k` is newly pressed: in `now` and not in `before` (R118). -/
def Rising (now before : KeySet) (k : Nat) : Prop := now.getLsbD k = true ∧ before.getLsbD k = false

/-! ## Which instructions may do what -/

/-- The flag writers of R22, and the instructions whose named destination is VF: a register field F, or FX65 up to
V15. FX0A is not among them: it writes its register when the wait ends (R118). -/
def writesVF : Instr → Bool
  | .orReg _ _ => true
  | .andReg _ _ => true
  | .xorReg _ _ => true
  | .addReg _ _ => true
  | .sub _ _ => true
  | .shr _ _ => true
  | .subn _ _ => true
  | .shl _ _ => true
  | .drw _ _ _ => true
  | .addI _ => true
  | .ldImm x _ => x == 15
  | .addImm x _ => x == 15
  | .ldReg x _ => x == 15
  | .rnd x _ => x == 15
  | .ldVxDt x => x == 15
  | .ldVxMem x => x == 15
  | .cls _ => false
  | .ret _ => false
  | .jp _ => false
  | .call _ => false
  | .seImm _ _ => false
  | .sneImm _ _ => false
  | .seReg _ _ _ => false
  | .sneReg _ _ _ => false
  | .ldI _ => false
  | .jpV0 _ => false
  | .skp _ => false
  | .sknp _ => false
  | .ldVxK _ => false
  | .ldDtVx _ => false
  | .ldStVx _ => false
  | .ldF _ => false
  | .ldB _ => false
  | .ldMemVx _ => false

/-- The instructions whose handler R230 lists as raising a fault; R234 names the others. -/
def mayFault : Instr → Bool
  | .ret _ => true
  | .call _ => true
  | .drw _ _ _ => true
  | .skp _ => true
  | .sknp _ => true
  | .ldF _ => true
  | .ldB _ => true
  | .ldMemVx _ => true
  | .ldVxMem _ => true
  | .cls _ => false
  | .jp _ => false
  | .seImm _ _ => false
  | .sneImm _ _ => false
  | .seReg _ _ _ => false
  | .sneReg _ _ _ => false
  | .ldImm _ _ => false
  | .addImm _ _ => false
  | .ldReg _ _ => false
  | .orReg _ _ => false
  | .andReg _ _ => false
  | .xorReg _ _ => false
  | .addReg _ _ => false
  | .sub _ _ => false
  | .shr _ _ => false
  | .subn _ _ => false
  | .shl _ _ => false
  | .ldI _ => false
  | .jpV0 _ => false
  | .rnd _ _ => false
  | .ldVxDt _ => false
  | .ldVxK _ => false
  | .ldDtVx _ => false
  | .ldStVx _ => false
  | .addI _ => false

end Sys2Proof.Machine
end

