-- ==== Sys2Proof/Certificates/Slice0/Obligations.lean ====
section
/-!
DEFINITION. The statements for the provers. Each docstring names the rules of spec/ it formalises.
-/
open Sys2Proof Sys2Proof.Machine

/-! ## Encoding -/

/-- Decoding the encoder's word gives the instruction back, for all 34 instructions and every value of their fields
(R70 to R79). -/
def Obligations.DecodeOfEncodeIsTheInstruction : Prop := ∀ i : Instr, decode (encode i) = .ok i

/-- Every instruction's word is the number its pattern in spec/opcode_table.json gives, with every field in its place
(R71, R72, R75 to R79, R84; the spec marks most of the family and sub-operation values as general knowledge). -/
def Obligations.EncodedWordsMatchTheirPatterns : Prop :=
  (∀ g : Byte,
    (encode (.cls g)).toNat = 0x0000 + 0x10 * g.toNat ∧ (encode (.ret g)).toNat = 0x000E + 0x10 * g.toNat) ∧
  (∀ nnn : Addr12,
    (encode (.jp nnn)).toNat = 0x1000 + nnn.toNat ∧ (encode (.call nnn)).toNat = 0x2000 + nnn.toNat ∧
    (encode (.ldI nnn)).toNat = 0xA000 + nnn.toNat ∧ (encode (.jpV0 nnn)).toNat = 0xB000 + nnn.toNat) ∧
  (∀ (x : Nibble) (nn : Byte),
    (encode (.seImm x nn)).toNat = 0x3000 + 0x100 * x.toNat + nn.toNat ∧
    (encode (.sneImm x nn)).toNat = 0x4000 + 0x100 * x.toNat + nn.toNat ∧
    (encode (.ldImm x nn)).toNat = 0x6000 + 0x100 * x.toNat + nn.toNat ∧
    (encode (.addImm x nn)).toNat = 0x7000 + 0x100 * x.toNat + nn.toNat ∧
    (encode (.rnd x nn)).toNat = 0xC000 + 0x100 * x.toNat + nn.toNat) ∧
  (∀ x y n : Nibble,
    (encode (.seReg x y n)).toNat = 0x5000 + 0x100 * x.toNat + 0x10 * y.toNat + n.toNat ∧
    (encode (.sneReg x y n)).toNat = 0x9000 + 0x100 * x.toNat + 0x10 * y.toNat + n.toNat ∧
    (encode (.drw x y n)).toNat = 0xD000 + 0x100 * x.toNat + 0x10 * y.toNat + n.toNat) ∧
  (∀ x y : Nibble,
    (encode (.ldReg x y)).toNat = 0x8000 + 0x100 * x.toNat + 0x10 * y.toNat ∧
    (encode (.orReg x y)).toNat = 0x8001 + 0x100 * x.toNat + 0x10 * y.toNat ∧
    (encode (.andReg x y)).toNat = 0x8002 + 0x100 * x.toNat + 0x10 * y.toNat ∧
    (encode (.xorReg x y)).toNat = 0x8003 + 0x100 * x.toNat + 0x10 * y.toNat ∧
    (encode (.addReg x y)).toNat = 0x8004 + 0x100 * x.toNat + 0x10 * y.toNat ∧
    (encode (.sub x y)).toNat = 0x8005 + 0x100 * x.toNat + 0x10 * y.toNat ∧
    (encode (.shr x y)).toNat = 0x8006 + 0x100 * x.toNat + 0x10 * y.toNat ∧
    (encode (.subn x y)).toNat = 0x8007 + 0x100 * x.toNat + 0x10 * y.toNat ∧
    (encode (.shl x y)).toNat = 0x800E + 0x100 * x.toNat + 0x10 * y.toNat) ∧
  (∀ x : Nibble,
    (encode (.skp x)).toNat = 0xE09E + 0x100 * x.toNat ∧ (encode (.sknp x)).toNat = 0xE0A1 + 0x100 * x.toNat ∧
    (encode (.ldVxDt x)).toNat = 0xF007 + 0x100 * x.toNat ∧ (encode (.ldVxK x)).toNat = 0xF00A + 0x100 * x.toNat ∧
    (encode (.ldDtVx x)).toNat = 0xF015 + 0x100 * x.toNat ∧ (encode (.ldStVx x)).toNat = 0xF018 + 0x100 * x.toNat ∧
    (encode (.addI x)).toNat = 0xF01E + 0x100 * x.toNat ∧ (encode (.ldF x)).toNat = 0xF029 + 0x100 * x.toNat ∧
    (encode (.ldB x)).toNat = 0xF033 + 0x100 * x.toNat ∧ (encode (.ldMemVx x)).toNat = 0xF055 + 0x100 * x.toNat ∧
    (encode (.ldVxMem x)).toNat = 0xF065 + 0x100 * x.toNat)

/-- The other direction: a word that decodes is the encoder's word for what it decodes to, so the word can be told from
the instruction. This is the MODEL's choice, log entry 7: an instruction keeps the bits that R72 calls ignored, while by
R82 those bits make no other instruction (0x5120 and 0x5121 are both SE V1, V2). -/
def Obligations.EncodeOfDecodeIsTheWord : Prop := ∀ (w : Word) (i : Instr), decode w = .ok i → encode i = w

/-- The decode errors are exactly R80's list, and executing one records (DECODE, pc, word, 0) and halts (R80, R230,
R231; the info 0 is log entry 6's reading). -/
def Obligations.DecodeErrorsAreTheListedWords : Prop :=
  ∀ w : Word,
    ((∃ e, decode w = .error e) ↔
      ((w.toNat / 4096 = 0x0 ∧ w.toNat % 16 ∉ [0x0, 0xE]) ∨
       (w.toNat / 4096 = 0x8 ∧ 7 < w.toNat % 16 ∧ w.toNat % 16 ≠ 0xE) ∨
       (w.toNat / 4096 = 0xE ∧ w.toNat % 256 ∉ [0x9E, 0xA1]) ∨
       (w.toNat / 4096 = 0xF ∧
         w.toNat % 256 ∉ [0x07, 0x0A, 0x15, 0x18, 0x1E, 0x29, 0x33, 0x55, 0x65]))) ∧
    ∀ s : State, fetch s = .ok w → (∃ e, decode w = .error e) →
      executeOne s = .next { s with
        err := { kind := .decode, pc := s.pc, word := some w, info := 0 }, run := false }

/-- At least one word of each of the 16 families, from spec/95_test_vectors.md (L1.1 and L2.1 to L2.4, programs P1 and
P4), and two decode errors of L2.1 (R74 to R80). -/
def Obligations.ListedWordsDecodeAsListed : Prop :=
  decode 0x00E0 = .ok (.cls 0x0E) ∧ decode 0x0ABE = .ok (.ret 0xAB) ∧ decode 0x1FFF = .ok (.jp 0xFFF) ∧
  decode 0x2ABC = .ok (.call 0xABC) ∧ decode 0x3342 = .ok (.seImm 3 0x42) ∧
  decode 0x4342 = .ok (.sneImm 3 0x42) ∧ decode 0x5121 = .ok (.seReg 1 2 1) ∧
  decode 0x610A = .ok (.ldImm 1 0x0A) ∧ decode 0x7201 = .ok (.addImm 2 0x01) ∧
  decode 0x8124 = .ok (.addReg 1 2) ∧ decode 0x912F = .ok (.sneReg 1 2 0xF) ∧
  decode 0xA234 = .ok (.ldI 0x234) ∧ decode 0xB300 = .ok (.jpV0 0x300) ∧
  decode 0xC30F = .ok (.rnd 3 0x0F) ∧ decode 0xD012 = .ok (.drw 0 1 2) ∧ decode 0xE19E = .ok (.skp 1) ∧
  decode 0xF11E = .ok (.addI 1) ∧ decode 0x0123 = .error (.family0 3) ∧
  decode 0xF130 = .error (.familyF 0x30)

/-! ## Fetch and the cycle -/

/-- The fetch reads the big-endian word at pc, with no alignment rule, or faults with MEM_RANGE and no word at the
lowest address outside memory (R56, R57, R107). -/
def Obligations.FetchIsBigEndianOrFaults : Prop :=
  ∀ s : State,
    (s.pc.toNat ≤ 0xFFE → ∃ w, fetch s = .ok w ∧
      w.toNat = (s.mem.byteAt s.pc.toNat).toNat * 256 + (s.mem.byteAt (s.pc.toNat + 1)).toNat) ∧
    (0xFFE < s.pc.toNat →
      fetch s = .error ⟨.memRange, max s.pc.toNat 0x1000⟩ ∧
      executeOne s = .next { s with
        err := { kind := .memRange, pc := s.pc, word := none, info := max s.pc.toNat 0x1000 }
        run := false })

/-- A step of a running, READY machine that is not stopped runs the instruction its bytes at pc decode to, in the
state with the host's ClearDirty done and the keypad refreshed, closes the cycle (timers, sound) and ends the host's
turn (R102, R105, R106, R108). -/
def Obligations.StepRunsTheDecodedInstruction : Prop :=
  ∀ (s : State) (i : Instr), s.run = true → s.mode = .ready → (turn s).stopIn = false → s.pc.toNat ≤ 0xFFE →
    decode (wordOfBytes (s.mem.byteAt s.pc.toNat) (s.mem.byteAt (s.pc.toNat + 1))) = .ok i →
    step s = mapNext endTurn (mapNext closeCycle
      (exec i { s with dirty := s.dirty && !(turn s).clearDirty, keys := (turn s).keysIn }))

/-- A word placed by withFetchWord is what the next step fetches and executes (R106, R107; the model's own helper,
log entry 11). -/
def Obligations.PlacedWordIsFetched : Prop :=
  ∀ (s : State) (w : Word), s.mem.wf = true →
    fetch (refreshKeys (hostClear (s.withFetchWord 16 w.toNat))) = .ok w ∧
    step (s.withFetchWord 16 w.toNat) = mapNext endTurn (mapNext closeCycle
      (executeOne (refreshKeys (hostClear (s.withFetchWord 16 w.toNat)))))

/-- No step stops with a fault or a refusal: faults of the spec are next states (R231, R103; log entry 5). -/
def Obligations.EveryStepAnswersANextState : Prop := ∀ s : State, ∃ t, step s = .next t

/-- A Cycle of a halted machine changes nothing (R103). So over any number of host turns it stays as it is, but that
`dirty` falls in the first turn in which the host calls ClearDirty, and never otherwise (R113, R119). That a turn is one
optional ClearDirty and one Cycle, and how the turns are listed and numbered, is the MODEL's choice (log entries 1 and
3). -/
def Obligations.HaltedMachineStaysAsItIs : Prop :=
  ∀ (n : Nat) (s : State), s.run = false → cycle s = .next s ∧
    core.run n s = .next { s with
      dirty := s.dirty && (List.range n).all fun k => !(turnAfter k s).clearDirty
      inputs := s.inputs.drop n
      cycleNo := s.cycleNo + n }

/-- In every turn, READY, AWAITING, stopped or HALTED, `dirty` ends as the host's ClearDirty of that turn left it,
unless the turn's Cycle executes CLS or DXYN; then it may only end as 1 (R29, R113; the turn is log entry 3). -/
def Obligations.DirtyFallsByClearDirtyOnly : Prop :=
  ∀ s t : State, step s = .next t →
    (t.dirty = true ∨ t.dirty = (s.dirty && !(turn s).clearDirty)) ∧
    (t.dirty ≠ (s.dirty && !(turn s).clearDirty) →
      handlerState s = .ready ∧ (turn s).stopIn = false ∧
      ∃ w, fetch s = .ok w ∧ ((∃ g, decode w = .ok (.cls g)) ∨ ∃ x y n, decode w = .ok (.drw x y n)))

/-- The stop input halts a running machine at the start of its cycle, READY or AWAITING, and changes nothing but
`run` and `sound_on` (R104). -/
def Obligations.StopInputHaltsBeforeAnythingElse : Prop :=
  ∀ s : State, s.run = true → (turn s).stopIn = true →
    cycle s = .next { s with run := false, soundOn := false } ∧
    ∃ t, step s = .next t ∧ handlerState t = .halted ∧ t.keys = s.keys ∧ t.dt = s.dt ∧ t.st = s.st ∧
      t.pc = s.pc ∧ t.err = s.err

/-- The timer phase ends every cycle that still runs: DT and ST fall by 1 unless 0, sound_on tells whether ST was
nonzero before, and nothing else changes after the instruction or the wait check. A cycle that ends halted keeps both
timers at their values from before it, sound off (R110, R111). -/
def Obligations.TimerPhaseEndsRunningCyclesOnly : Prop :=
  ∀ s t : State, s.run = true → cycle s = .next t →
    (t.run = true → ∃ u, runOrWait (refreshKeys s) = .next u ∧
      t.dt.toNat = u.dt.toNat - 1 ∧ t.st.toNat = u.st.toNat - 1 ∧ (t.soundOn = true ↔ u.st.toNat ≠ 0) ∧
      t = { u with dt := t.dt, st := t.st, soundOn := t.soundOn }) ∧
    (t.run = false → t.dt = s.dt ∧ t.st = s.st ∧ t.soundOn = false)

/-- In the AWAITING state: with no rising key the wait goes on with the new snapshot; the lowest rising key resumes
it, stored in V[ax], with pc past the FX0A. Either way the timers tick and nothing else changes (R118, R243). -/
def Obligations.WaitResumesOnTheLowestRisingKey : Prop :=
  ∀ (s : State) (ax : Nibble) (prev : KeySet), s.run = true → s.mode = .awaitKey ax prev →
    (turn s).stopIn = false → ∃ t, cycle s = .next t ∧
      t.keys = (turn s).keysIn ∧ t.dt.toNat = s.dt.toNat - 1 ∧ t.st.toNat = s.st.toNat - 1 ∧
      (t.soundOn = true ↔ s.st.toNat ≠ 0) ∧
      t = { s with keys := t.keys, v := t.v, pc := t.pc, mode := t.mode, dt := t.dt, st := t.st
                   soundOn := t.soundOn } ∧
      ((∀ k, k < 16 → ¬ Rising (turn s).keysIn prev k) →
        t.mode = .awaitKey ax (turn s).keysIn ∧ t.pc = s.pc ∧ t.v = s.v) ∧
      (∀ k, k < 16 → Rising (turn s).keysIn prev k → (∀ j, j < k → ¬ Rising (turn s).keysIn prev j) →
        t.mode = .ready ∧ PcAdvanced 2 s t ∧
        ∀ r, (getV r t).toNat = if r = ax then k else (getV r s).toNat)

/-- The transition table of the handler state machine (R100). -/
def Obligations.HandlerStatesMoveAsTheTableSays : Prop :=
  ∀ s t : State, cycle s = .next t →
    (handlerState s = .halted → t = s) ∧
    (handlerState s ≠ .halted → (turn s).stopIn = true → handlerState t = .halted ∧ t.err = s.err) ∧
    (handlerState s = .ready → (turn s).stopIn = false →
      ∃ u, executeOne (refreshKeys s) = .next u ∧
        (u.run = false → handlerState t = .halted ∧ t.err.kind ≠ .noError) ∧
        (u.run = true → (∃ w x, fetch s = .ok w ∧ decode w = .ok (.ldVxK x)) → handlerState t = .awaiting) ∧
        (u.run = true → (¬ ∃ w x, fetch s = .ok w ∧ decode w = .ok (.ldVxK x)) → handlerState t = .ready)) ∧
    (∀ ax prev, handlerState s = .awaiting → s.mode = .awaitKey ax prev → (turn s).stopIn = false →
      ((∃ k, k < 16 ∧ Rising (turn s).keysIn prev k) → handlerState t = .ready) ∧
      ((¬ ∃ k, k < 16 ∧ Rising (turn s).keysIn prev k) →
        handlerState t = .awaiting ∧ t.mode = .awaitKey ax (turn s).keysIn))

/-- Every running cycle that is not stopped ends with this cycle's keypad input as its snapshot; in every other cycle
the snapshot stays (R30, R103 to R105). -/
def Obligations.KeypadIsRefreshedInRunningCycles : Prop :=
  ∀ s t : State, cycle s = .next t →
    t.keys = if s.run = true ∧ (turn s).stopIn = false then (turn s).keysIn else s.keys

/-- rand_in has no effect in a cycle that does not execute a CXNN (R117). -/
def Obligations.RandomInputReachesRndOnly : Prop :=
  ∀ (s : State) (h : HostTurn) (rest : List HostTurn) (b : Byte), s.inputs = h :: rest →
    (¬ (s.run = true ∧ s.mode = .ready ∧ h.stopIn = false ∧
      ∃ w x nn, fetch s = .ok w ∧ decode w = .ok (.rnd x nn))) →
    step { s with inputs := { h with randIn := b } :: rest } = step s

/-- A timer write is ticked in its own cycle, and FX07 reads DT before this cycle's tick (R202, R204, R205, R267). -/
def Obligations.TimerWriteIsTickedInItsOwnCycle : Prop :=
  ∀ (s : State) (w : Word) (x : Nibble), s.run = true → s.mode = .ready → (turn s).stopIn = false →
    fetch s = .ok w →
    (decode w = .ok (.ldDtVx x) → ∃ t, step s = .next t ∧ t.dt.toNat = (getV x s).toNat - 1) ∧
    (decode w = .ok (.ldStVx x) → ∃ t, step s = .next t ∧ t.st.toNat = (getV x s).toNat - 1 ∧
      (t.soundOn = true ↔ (getV x s).toNat ≠ 0)) ∧
    (decode w = .ok (.ldVxDt x) → ∃ t, step s = .next t ∧ getV x t = s.dt ∧ t.dt.toNat = s.dt.toNat - 1)

/-! ## Memory -/

/-- MemRead and MemWrite (R53, R54): which addresses they take, what each answers elsewhere, and that a written byte
reads back while every other byte of memory stays (R60). -/
def Obligations.CheckedAccessReadsAndWrites : Prop :=
  ∀ (s : State) (a : Nat) (v : Byte),
    (0xFFF < a → memRead a s = .error ⟨.memRange, a⟩ ∧ memWrite a v s = .error ⟨.memRange, a⟩) ∧
    (a ≤ 0x04F → memWrite a v s = .error ⟨.memProtect, a⟩) ∧
    (a ≤ 0xFFF → memRead a s = .ok (s.mem.byteAt a)) ∧
    (s.mem.wf = true → 0x050 ≤ a → a ≤ 0xFFF → ∃ t, memWrite a v s = .ok t ∧ memRead a t = .ok v ∧
      (∀ b, b ≠ a → memRead b t = memRead b s) ∧ t = { s with mem := t.mem })

/-- A stored byte is fetched in its new form by any later fetch at that address, as the high or as the low byte of a
word (R62, R268). -/
def Obligations.StoredByteIsFetched : Prop :=
  ∀ (s t u : State) (a : Nat) (v : Byte), s.mem.wf = true → memWrite a v s = .ok t → u.mem = t.mem →
    (u.pc.toNat = a → a ≤ 0xFFE → fetch u = .ok (wordOfBytes v (s.mem.byteAt (a + 1)))) ∧
    (u.pc.toNat + 1 = a → fetch u = .ok (wordOfBytes (s.mem.byteAt u.pc.toNat) v))

/-- No step changes a byte of the font region 0x000..0x04F (R52, R54, R63). -/
def Obligations.FontRegionNeverChanges : Prop :=
  ∀ (s t : State) (a : Nat), step s = .next t → a ≤ 0x04F → t.mem.byteAt a = s.mem.byteAt a

/-- Memory changes only in a READY cycle that executes FX33 or FX55 (R58, R63). -/
def Obligations.OnlyStoresChangeMemory : Prop :=
  ∀ s t : State, step s = .next t → t.mem ≠ s.mem → handlerState s = .ready ∧
    ∃ w x, fetch s = .ok w ∧ (decode w = .ok (.ldB x) ∨ decode w = .ok (.ldMemVx x))

/-! ## Invariants -/

/-- Every step keeps memory in its canonical form (the model's own form, log entry 10; R50, R54). -/
def Obligations.StepKeepsMemoryCanonical : Prop :=
  ∀ s t : State, s.mem.wf = true → step s = .next t → t.mem.wf = true

/-- Every step keeps the run flag, the error record and the sound in agreement; so a recorded fault is final (R31,
R33, R111, R231, R236). -/
def Obligations.StepKeepsRunAndErrorAgreeing : Prop :=
  ∀ s t : State, RunErrAgree s → step s = .next t →
    RunErrAgree t ∧ (s.err.kind ≠ .noError → t.err = s.err)

/-- Every step keeps pc at most 0x10FE and every return address one a CALL can have been fetched at (R25, R131,
R171). -/
def Obligations.StepKeepsPcBounded : Prop :=
  ∀ s t : State, PcBounded s → step s = .next t → PcBounded t

/-- The state after reset meets the invariants (R37). -/
def Obligations.ResetIsSafe : Prop := Safe State.reset

/-- Every construction, from any FONT and any ROM input, the failed loads among them, meets the invariants (R37, R260
to R262). -/
def Obligations.ConstructionIsSafe : Prop := ∀ (font : Vector Byte 80) (rom : RomInput), Safe (construct font rom)

/-! ## Faults -/

/-- Faults are precise: an instruction that halts a running machine changed nothing but the record, which holds its
own pc and word, and the run flag (R231, R232). -/
def Obligations.FaultsArePrecise : Prop :=
  ∀ (i : Instr) (s t : State), s.run = true → exec i s = .next t → t.run = false →
    t.err.pc = s.pc ∧ t.err.word = some (encode i) ∧ t.err.kind ≠ .noError ∧
    t = { s with err := t.err, run := false }

/-- The instructions that R230 does not list raise no fault in their handler, FX1E among them, and every instruction
it lists raises one in some state (R230, R234). -/
def Obligations.OnlyListedInstructionsFault : Prop :=
  (∀ (i : Instr) (s t : State), mayFault i = false → exec i s = .next t → t.run = s.run ∧ t.err = s.err) ∧
  (∀ (i : Instr), mayFault i = true → (∀ x y, i ≠ .drw x y 0) →
    ∃ s t : State, s.run = true ∧ exec i s = .next t ∧ t.run = false)

/-! ## Construction -/

/-- A successful construction leaves every piece of state as R37 lists it: FONT, zeros, the ROM from 0x200 (R37,
R260, R261). The model's own fields, the host's turns, are not among them (log entry 2). -/
def Obligations.ConstructBuildsTheListedState : Prop :=
  ∀ (font : Vector Byte 80) (b : List Byte), b.length ≤ 3584 →
    (∀ (a : Nat) (h : a < 80), (construct font (.bytes b)).mem.byteAt a = font[a]) ∧
    (∀ a, 0x050 ≤ a → a < 0x200 → (construct font (.bytes b)).mem.byteAt a = 0) ∧
    (∀ (k : Nat) (h : k < b.length), (construct font (.bytes b)).mem.byteAt (0x200 + k) = b[k]) ∧
    (∀ a, 0x200 + b.length ≤ a → a ≤ 0xFFF → (construct font (.bytes b)).mem.byteAt a = 0) ∧
    (∀ r, getV r (construct font (.bytes b)) = 0) ∧
    (∀ k : Fin 16, (construct font (.bytes b)).stack[k.val] = 0) ∧
    (∀ px py, pixel (construct font (.bytes b)).fb px py = false) ∧
    construct font (.bytes b) =
      { construct font (.bytes b) with
        i := 0, pc := 0x200, sp := 0, dt := 0, st := 0, dirty := false, keys := 0, run := true
        mode := .ready, soundOn := false, err := { kind := .noError, pc := 0, word := none, info := 0 } }

/-- A load that cannot complete copies nothing, records (ROM_LOAD, 0x200, none, 0 or the length) and leaves the block
halted; the rest is as an empty ROM leaves it (R262). -/
def Obligations.FailedLoadHaltsBeforeAnyCopy : Prop :=
  ∀ (font : Vector Byte 80) (b : List Byte),
    construct font .readFailure = { construct font (.bytes []) with
      err := { kind := .romLoad, pc := 0x200, word := none, info := 0 }, run := false } ∧
    (3584 < b.length → construct font (.bytes b) = { construct font (.bytes []) with
      err := { kind := .romLoad, pc := 0x200, word := none, info := b.length }, run := false })

/-- ReadFramebuffer is row-major and ReadStatus is the four named elements (R114, R115). -/
def Obligations.HostReadsAreRowMajorAndExact : Prop :=
  ∀ s : State,
    (∀ (px : Fin 64) (py : Fin 32), (readFramebuffer s)[py.val * 64 + px.val]'(by omega) = pixel s.fb px py) ∧
    readStatus s = { run := s.run, dirty := s.dirty, soundOn := s.soundOn, err := s.err }

/-! ## Whole-machine rules about the instructions -/

/-- The access matrix: which instructions write each element; none writes the keypad snapshot, sound_on or the host's
turns (R24, R27, R28, R29, R30, R38). -/
def Obligations.InstructionsWriteOnlyWhatTheMatrixAllows : Prop :=
  ∀ (i : Instr) (s t : State), exec i s = .next t →
    t.keys = s.keys ∧ t.soundOn = s.soundOn ∧ t.inputs = s.inputs ∧ t.cycleNo = s.cycleNo ∧
    (t.i ≠ s.i → (∃ n, i = .ldI n) ∨ ∃ x, i = .addI x ∨ i = .ldF x ∨ i = .ldMemVx x ∨ i = .ldVxMem x) ∧
    ((t.stack ≠ s.stack ∨ t.sp ≠ s.sp) → (∃ n, i = .call n) ∨ ∃ g, i = .ret g) ∧
    (t.dt ≠ s.dt → ∃ x, i = .ldDtVx x) ∧
    (t.st ≠ s.st → ∃ x, i = .ldStVx x) ∧
    (t.fb ≠ s.fb → (∃ g, i = .cls g) ∨ ∃ x y n, i = .drw x y n) ∧
    (t.dirty ≠ s.dirty → t.dirty = true ∧ ((∃ g, i = .cls g) ∨ ∃ x y n, i = .drw x y n)) ∧
    (t.mode ≠ s.mode → ∃ x, i = .ldVxK x) ∧
    (t.mem ≠ s.mem → ∃ x, i = .ldB x ∨ i = .ldMemVx x)

/-- VF changes only in the flag writers and the instructions that name VF as destination (R22). -/
def Obligations.OnlyListedInstructionsChangeVF : Prop :=
  ∀ (i : Instr) (s t : State), exec i s = .next t → getV 15 t ≠ getV 15 s → writesVF i = true

/-- The frame buffer changes only in a READY cycle that executes CLS or DXYN (R28). -/
def Obligations.OnlyClsAndDrwChangePixels : Prop :=
  ∀ s t : State, step s = .next t → t.fb ≠ s.fb → handlerState s = .ready ∧
    ∃ w, fetch s = .ok w ∧ ((∃ g, decode w = .ok (.cls g)) ∨ ∃ x y n, decode w = .ok (.drw x y n))

/-- Ignored bits change no effect; a RET that faults records its own word and differs in nothing else (R72, R82,
R160, R162; log entry 7). -/
def Obligations.IgnoredBitsChangeNoEffect : Prop :=
  ∀ (x y y' a a' : Nibble) (g g' : Byte) (s : State),
    exec (.cls g) s = exec (.cls g') s ∧
    exec (.seReg x y a) s = exec (.seReg x y a') s ∧
    exec (.sneReg x y a) s = exec (.sneReg x y a') s ∧
    exec (.shr x y) s = exec (.shr x y') s ∧
    exec (.shl x y) s = exec (.shl x y') s ∧
    (0 < s.sp.val → exec (.ret g) s = exec (.ret g') s) ∧
    (s.sp.val = 0 → ∃ t t', exec (.ret g) s = .next t ∧ exec (.ret g') s = .next t' ∧
      t' = { t with err := { t.err with word := some (encode (.ret g')) } })

/-! ## Instructions: results, frames and completion

The effect of each instruction. Its encoding is stated above, by EncodedWordsMatchTheirPatterns. -/

/-- CLS: every pixel 0, dirty 1, pc + 2, nothing else (R130). -/
def Obligations.ClsBlanksEveryPixel : Prop :=
  ∀ (g : Byte) (s : State), ∃ t, exec (.cls g) s = .next t ∧
    (∀ px py, pixel t.fb px py = false) ∧ t.dirty = true ∧ PcAdvanced 2 s t ∧
    t = { s with fb := t.fb, dirty := t.dirty, pc := t.pc }

/-- RET: with an active entry, SP falls by 1, pc is the top entry plus 2, every slot keeps its value, nothing else
changes; with SP = 0, STACK_UNDERFLOW (R131). -/
def Obligations.RetReturnsPastTheTopEntry : Prop :=
  ∀ (g : Byte) (s : State),
    (∀ (k : Nat) (h : k < 16), s.sp.val = k + 1 → ∃ t, exec (.ret g) s = .next t ∧ t.sp.val = k ∧
      t.pc.toNat = (s.stack[k].toNat + 2) % 65536 ∧ t = { s with sp := t.sp, pc := t.pc }) ∧
    (s.sp.val = 0 → exec (.ret g) s = .next (faulted .stackUnderflow 0 (.ret g) s))

/-- JP nnn and JP V0, nnn: pc is the target, the address masked first and V0 added after, and nothing else changes
(R132, R171). -/
def Obligations.JumpsSetPcToTheTarget : Prop :=
  ∀ (nnn : Addr12) (s : State),
    (∃ t, exec (.jp nnn) s = .next t ∧ t.pc.toNat = nnn.toNat ∧ t = { s with pc := t.pc }) ∧
    (∃ t, exec (.jpV0 nnn) s = .next t ∧ t.pc.toNat = nnn.toNat + (getV 0 s).toNat ∧
      t = { s with pc := t.pc })

/-- CALL nnn: with a free slot, the CALL's own address goes to stack[SP], SP rises by 1, pc is the target, the other
slots and everything else stay; with SP = 16, STACK_OVERFLOW (R133). -/
def Obligations.CallPushesItsOwnAddress : Prop :=
  ∀ (nnn : Addr12) (s : State),
    (s.sp.val < 16 → ∃ t, exec (.call nnn) s = .next t ∧ t.sp.val = s.sp.val + 1 ∧ t.pc.toNat = nnn.toNat ∧
      (∀ k : Fin 16, t.stack[k.val] = if k.val = s.sp.val then s.pc else s.stack[k.val]) ∧
      t = { s with stack := t.stack, sp := t.sp, pc := t.pc }) ∧
    (s.sp.val = 16 → exec (.call nnn) s = .next (faulted .stackOverflow 16 (.call nnn) s))

/-- A CALL and then, wherever the subroutine stands, a RET that finds the stack as the CALL left it come back to the
instruction after the CALL with SP as before (R26, R131, R133). -/
def Obligations.RetUndoesCall : Prop :=
  ∀ (nnn : Addr12) (g : Byte) (s : State), s.sp.val < 16 → ∃ t, exec (.call nnn) s = .next t ∧
    ∀ u : State, u.stack = t.stack → u.sp = t.sp → ∃ r, exec (.ret g) u = .next r ∧
      r.sp = s.sp ∧ PcAdvanced 2 s r

/-- The four register skips: pc + 4 if the condition holds, else pc + 2, and nothing else (R134 to R137). -/
def Obligations.SkipsAdvanceByFourOrTwo : Prop :=
  ∀ (x y a : Nibble) (nn : Byte) (s : State),
    (∃ t, exec (.seImm x nn) s = .next t ∧
      PcAdvanced (if (getV x s).toNat = nn.toNat then 4 else 2) s t ∧ t = { s with pc := t.pc }) ∧
    (∃ t, exec (.sneImm x nn) s = .next t ∧
      PcAdvanced (if (getV x s).toNat ≠ nn.toNat then 4 else 2) s t ∧ t = { s with pc := t.pc }) ∧
    (∃ t, exec (.seReg x y a) s = .next t ∧
      PcAdvanced (if (getV x s).toNat = (getV y s).toNat then 4 else 2) s t ∧ t = { s with pc := t.pc }) ∧
    (∃ t, exec (.sneReg x y a) s = .next t ∧
      PcAdvanced (if (getV x s).toNat ≠ (getV y s).toNat then 4 else 2) s t ∧ t = { s with pc := t.pc })

/-- LD Vx, nn; ADD Vx, nn (mod 256, no flag); LD Vx, Vy (no flag): Vx, pc + 2, nothing else (R152, R153, R154). -/
def Obligations.ImmediatesAndMoveWriteNoFlag : Prop :=
  ∀ (x y : Nibble) (nn : Byte) (s : State),
    (∃ t, exec (.ldImm x nn) s = .next t ∧ RegisterResult x nn.toNat s t) ∧
    (∃ t, exec (.addImm x nn) s = .next t ∧ RegisterResult x (((getV x s).toNat + nn.toNat) % 256) s t) ∧
    (∃ t, exec (.ldReg x y) s = .next t ∧ RegisterResult x (getV y s).toNat s t)

/-- OR, AND and XOR, bit by bit, clear VF, which also wins when x = F (R151, R155, R156, R157). -/
def Obligations.LogicOperationsClearVF : Prop :=
  ∀ (x y : Nibble) (s : State),
    (∃ t, exec (.orReg x y) s = .next t ∧ FlaggedResult x ((getV x s).toNat ||| (getV y s).toNat) 0 s t) ∧
    (∃ t, exec (.andReg x y) s = .next t ∧ FlaggedResult x ((getV x s).toNat &&& (getV y s).toNat) 0 s t) ∧
    (∃ t, exec (.xorReg x y) s = .next t ∧ FlaggedResult x ((getV x s).toNat ^^^ (getV y s).toNat) 0 s t)

/-- ADD, SUB and SUBN of registers wrap modulo 256 and put carry, or not-borrow, into VF, which wins when x = F
(R150, R151, R158, R159, R161). -/
def Obligations.AddAndSubtractSetCarryOrNotBorrow : Prop :=
  ∀ (x y : Nibble) (s : State),
    (∃ t, exec (.addReg x y) s = .next t ∧
      FlaggedResult x (((getV x s).toNat + (getV y s).toNat) % 256)
        (if 255 < (getV x s).toNat + (getV y s).toNat then 1 else 0) s t) ∧
    (∃ t, exec (.sub x y) s = .next t ∧
      FlaggedResult x (if (getV x s).toNat < (getV y s).toNat
          then (getV x s).toNat + 256 - (getV y s).toNat else (getV x s).toNat - (getV y s).toNat)
        (if (getV x s).toNat < (getV y s).toNat then 0 else 1) s t) ∧
    (∃ t, exec (.subn x y) s = .next t ∧
      FlaggedResult x (if (getV y s).toNat < (getV x s).toNat
          then (getV y s).toNat + 256 - (getV x s).toNat else (getV y s).toNat - (getV x s).toNat)
        (if (getV y s).toNat < (getV x s).toNat then 0 else 1) s t)

/-- SHR and SHL move Vx by one place and put the bit shifted out into VF, which wins when x = F; Vy is not read
(R151, R160, R162). -/
def Obligations.ShiftsSetTheBitShiftedOut : Prop :=
  ∀ (x y : Nibble) (s : State),
    (∃ t, exec (.shr x y) s = .next t ∧ FlaggedResult x ((getV x s).toNat / 2) ((getV x s).toNat % 2) s t) ∧
    (∃ t, exec (.shl x y) s = .next t ∧
      FlaggedResult x ((getV x s).toNat * 2 % 256) ((getV x s).toNat / 128) s t)

/-- LD I, nnn: I, pc + 2, nothing else (R170). -/
def Obligations.LoadIndexTakesTheAddress : Prop :=
  ∀ (nnn : Addr12) (s : State), ∃ t, exec (.ldI nnn) s = .next t ∧ t.i.toNat = nnn.toNat ∧ PcAdvanced 2 s t ∧
    t = { s with i := t.i, pc := t.pc }

/-- RND Vx, nn: Vx is this cycle's draw AND nn, whatever the draw; pc + 2; nothing else (R172). -/
def Obligations.RandomIsMaskedByTheImmediate : Prop :=
  ∀ (x : Nibble) (nn : Byte) (s : State), ∃ t, exec (.rnd x nn) s = .next t ∧
    RegisterResult x ((turn s).randIn.toNat &&& nn.toNat) s t

/-- DRW: where the sprite's bytes exist, or there are none, every pixel is XORed with the sprite, wrapped on both
axes; VF is 1 exactly if a set bit fell on a pixel that was on; dirty, pc + 2; nothing else, I and memory among it.
Where the sprite runs out of memory, MEM_RANGE at the lowest address outside, and no pixel changes (R181). -/
def Obligations.DrawXorsTheSpriteAndDetectsCollision : Prop :=
  ∀ (x y n : Nibble) (s : State),
    ((n.toNat = 0 ∨ s.i.toNat + n.toNat - 1 ≤ 0xFFF) → ∃ t, exec (.drw x y n) s = .next t ∧
      (∀ px py, pixel t.fb px py = true ↔ ¬ (pixel s.fb px py = true ↔ SpriteSets x y n s px py)) ∧
      ((∃ px py, SpriteSets x y n s px py ∧ pixel s.fb px py = true) → (getV 15 t).toNat = 1) ∧
      ((¬ ∃ px py, SpriteSets x y n s px py ∧ pixel s.fb px py = true) → (getV 15 t).toNat = 0) ∧
      (∀ r, r ≠ 15 → getV r t = getV r s) ∧ t.dirty = true ∧ PcAdvanced 2 s t ∧
      t = { s with fb := t.fb, v := t.v, dirty := t.dirty, pc := t.pc }) ∧
    (0 < n.toNat → 0xFFF < s.i.toNat + n.toNat - 1 →
      exec (.drw x y n) s = .next (faulted .memRange (max s.i.toNat 0x1000) (.drw x y n) s))

/-- The frame-buffer word-write controller, one rotated 64-bit XOR a row, draws what the pixel loop draws and finds
the same collision (R186). -/
def Obligations.RowWordDrawEqualsPixelDraw : Prop :=
  ∀ (x0 y0 : Byte) (rows : List Byte) (fb : FrameBuffer) (hit : Bool), rows.length ≤ 15 →
    drawRowWords x0 y0 0 rows (fb, hit) = drawRows x0 y0 0 rows (fb, hit)

/-- SKP and SKNP: with Vx a key, pc + 4 if the key is pressed, or not pressed, in the snapshot, else pc + 2, and
nothing else; with Vx above 0xF, OPERAND_RANGE with the operand's value (R200, R201). -/
def Obligations.KeySkipsReadTheSnapshot : Prop :=
  ∀ (x : Nibble) (s : State),
    ((getV x s).toNat ≤ 0xF →
      (∃ t, exec (.skp x) s = .next t ∧
        PcAdvanced (if s.keys.getLsbD (getV x s).toNat = true then 4 else 2) s t ∧ t = { s with pc := t.pc }) ∧
      (∃ t, exec (.sknp x) s = .next t ∧
        PcAdvanced (if s.keys.getLsbD (getV x s).toNat = false then 4 else 2) s t ∧ t = { s with pc := t.pc })) ∧
    (0xF < (getV x s).toNat →
      exec (.skp x) s = .next (faulted .operandRange (getV x s).toNat (.skp x) s) ∧
      exec (.sknp x) s = .next (faulted .operandRange (getV x s).toNat (.sknp x) s))

/-- LD Vx, DT; LD DT, Vx; LD ST, Vx: the one register, pc + 2, nothing else (R202, R204, R205). -/
def Obligations.TimerMovesCopyTheByte : Prop :=
  ∀ (x : Nibble) (s : State),
    (∃ t, exec (.ldVxDt x) s = .next t ∧ RegisterResult x s.dt.toNat s t) ∧
    (∃ t, exec (.ldDtVx x) s = .next t ∧ t.dt = getV x s ∧ PcAdvanced 2 s t ∧
      t = { s with dt := t.dt, pc := t.pc }) ∧
    (∃ t, exec (.ldStVx x) s = .next t ∧ t.st = getV x s ∧ PcAdvanced 2 s t ∧
      t = { s with st := t.st, pc := t.pc })

/-- LD Vx, K: the wait begins with this cycle's snapshot as `prev`; pc, Vx and all else stay. In a waiting cycle, the
first or a later one, only a key that was not pressed in `prev` counts: with no such key the wait goes on, whatever
keys are held or released, and `prev` becomes the new snapshot; else one such key is stored, never one that `prev` holds
(R203). -/
def Obligations.KeyWaitBeginsAndIgnoresHeldKeys : Prop :=
  ∀ (x : Nibble) (s : State), ∃ t, exec (.ldVxK x) s = .next t ∧ t.mode = .awaitKey x s.keys ∧
    t = { s with mode := t.mode } ∧
    ∀ (u : State) (prev : KeySet), u.run = true → u.mode = .awaitKey x prev → (turn u).stopIn = false →
      ∃ r, cycle u = .next r ∧
        ((∀ k, k < 16 → ¬ Rising (turn u).keysIn prev k) →
          r.mode = .awaitKey x (turn u).keysIn ∧ r.pc = u.pc ∧ r.v = u.v) ∧
        ((∃ k, k < 16 ∧ Rising (turn u).keysIn prev k) →
          r.mode = .ready ∧ PcAdvanced 2 u r ∧
          ∃ k, k < 16 ∧ Rising (turn u).keysIn prev k ∧ (getV x r).toNat = k)

/-- ADD I, Vx: I is the sum mod 2^16, VF is 1 exactly if the sum passed 0xFFF, also when x = F; pc + 2; no fault;
nothing else (R206). -/
def Obligations.AddIndexKeepsTheSumAndFlagsOverflow : Prop :=
  ∀ (x : Nibble) (s : State), ∃ t, exec (.addI x) s = .next t ∧
    t.i.toNat = (s.i.toNat + (getV x s).toNat) % 65536 ∧
    (∀ r, (getV r t).toNat =
      if r = 15 then (if 0xFFF < s.i.toNat + (getV x s).toNat then 1 else 0) else (getV r s).toNat) ∧
    PcAdvanced 2 s t ∧ t = { s with i := t.i, v := t.v, pc := t.pc }

/-- LD F, Vx: with a hex digit, I is 5 times the digit, in the font region, pc + 2, nothing else; with Vx above 0xF,
OPERAND_RANGE with the operand's value (R207, R65). -/
def Obligations.GlyphAddressIsFiveTimesTheDigit : Prop :=
  ∀ (x : Nibble) (s : State),
    ((getV x s).toNat ≤ 0xF → ∃ t, exec (.ldF x) s = .next t ∧
      t.i.toNat = 5 * (getV x s).toNat ∧ t.i.toNat + 4 ≤ 0x04F ∧ PcAdvanced 2 s t ∧
      t = { s with i := t.i, pc := t.pc }) ∧
    (0xF < (getV x s).toNat →
      exec (.ldF x) s = .next (faulted .operandRange (getV x s).toNat (.ldF x) s))

/-- LD B, Vx: hundreds, tens and ones at I, I + 1, I + 2; every other byte, I and all else stay; pc + 2. A range that
leaves memory is MEM_RANGE at the lowest address outside; one that begins in the font region is MEM_PROTECT; then
nothing is written (R208). -/
def Obligations.BcdStoresThreeDigits : Prop :=
  ∀ (x : Nibble) (s : State),
    (s.mem.wf = true → 0x050 ≤ memBase s → memBase s + 2 ≤ 0xFFF → ∃ t, exec (.ldB x) s = .next t ∧
      (t.mem.byteAt (memBase s)).toNat = (getV x s).toNat / 100 ∧
      (t.mem.byteAt (memBase s + 1)).toNat = (getV x s).toNat / 10 % 10 ∧
      (t.mem.byteAt (memBase s + 2)).toNat = (getV x s).toNat % 10 ∧
      (∀ a, (a < memBase s ∨ memBase s + 2 < a) → t.mem.byteAt a = s.mem.byteAt a) ∧
      PcAdvanced 2 s t ∧ t = { s with mem := t.mem, pc := t.pc }) ∧
    (0xFFF < memBase s + 2 →
      exec (.ldB x) s = .next (faulted .memRange (max (memBase s) 0x1000) (.ldB x) s)) ∧
    (memBase s ≤ 0x04F → exec (.ldB x) s = .next (faulted .memProtect (memBase s) (.ldB x) s))

/-- LD [I], Vx: V0 to Vx at I to I + x; I is I + x + 1; every other byte and all else stay; pc + 2. A range that leaves
memory is MEM_RANGE at the lowest address outside; one that begins in the font region is MEM_PROTECT; then nothing is
written and I stays (R209). -/
def Obligations.BulkStoreWritesV0ToVx : Prop :=
  ∀ (x : Nibble) (s : State),
    (s.mem.wf = true → 0x050 ≤ memBase s → memBase s + x.toNat ≤ 0xFFF → ∃ t, exec (.ldMemVx x) s = .next t ∧
      (∀ r : Nibble, r.toNat ≤ x.toNat → t.mem.byteAt (memBase s + r.toNat) = getV r s) ∧
      (∀ a, (a < memBase s ∨ memBase s + x.toNat < a) → t.mem.byteAt a = s.mem.byteAt a) ∧
      t.i.toNat = memBase s + x.toNat + 1 ∧ PcAdvanced 2 s t ∧
      t = { s with mem := t.mem, i := t.i, pc := t.pc }) ∧
    (0xFFF < memBase s + x.toNat →
      exec (.ldMemVx x) s = .next (faulted .memRange (max (memBase s) 0x1000) (.ldMemVx x) s)) ∧
    (memBase s ≤ 0x04F → exec (.ldMemVx x) s = .next (faulted .memProtect (memBase s) (.ldMemVx x) s))

/-- LD Vx, [I]: V0 to Vx from I to I + x, VF too when x = F; the other registers stay; I is I + x + 1; memory and all
else stay; pc + 2. A range that leaves memory is MEM_RANGE at the lowest address outside; then no register and not I
change (R210). -/
def Obligations.BulkLoadReadsV0ToVx : Prop :=
  ∀ (x : Nibble) (s : State),
    (memBase s + x.toNat ≤ 0xFFF → ∃ t, exec (.ldVxMem x) s = .next t ∧
      (∀ r : Nibble, getV r t =
        if r.toNat ≤ x.toNat then s.mem.byteAt (memBase s + r.toNat) else getV r s) ∧
      t.i.toNat = memBase s + x.toNat + 1 ∧ PcAdvanced 2 s t ∧
      t = { s with v := t.v, i := t.i, pc := t.pc }) ∧
    (0xFFF < memBase s + x.toNat →
      exec (.ldVxMem x) s = .next (faulted .memRange (max (memBase s) 0x1000) (.ldVxMem x) s))
end

