-- ==== Sys2Proof/Laws/Memory.lean ====
section
/-!
SUPPORT. Laws of memory as data: a write reads back, leaves every other address alone, and every operation keeps
the canonical form (log entry 10).
-/
namespace Sys2Proof.Machine

/-! ## Lists of cells -/

theorem cellAt_putCell_other (d : Byte) (a b : Nat) (v : Byte) (l : List Host.Cell) (h : b ≠ a) :
    cellAt b (putCell d a v l) = cellAt b l := by
  induction l with
  | nil => unfold putCell; split <;> simp [cellAt, h]
  | cons c rest ih =>
    obtain ⟨e, x⟩ := c
    unfold putCell
    split
    · split <;> simp [cellAt, h]
    · split
      · next h2 => subst h2; split <;> simp [cellAt, h]
      · simp [cellAt, ih]

/-- In a canonical list no address below its lower bound is listed. -/
theorem cellAt_below (lo a : Nat) (l : List Host.Cell) (hw : cellsWf lo l = true) (h : a < lo) :
    cellAt a l = none := by
  induction l generalizing lo with
  | nil => rfl
  | cons c rest ih =>
    obtain ⟨e, x⟩ := c
    simp only [cellsWf, Bool.and_eq_true, decide_eq_true_eq] at hw
    have hne : a ≠ e := by omega
    simp only [cellAt, hne, if_false]
    exact ih (e + 1) hw.2 (by omega)

theorem cellsWf_mono (lo lo' : Nat) (l : List Host.Cell) (hw : cellsWf lo l = true) (h : lo' ≤ lo) :
    cellsWf lo' l = true := by
  cases l with
  | nil => rfl
  | cons c rest =>
    obtain ⟨e, x⟩ := c
    simp only [cellsWf, Bool.and_eq_true, decide_eq_true_eq] at hw ⊢
    exact ⟨⟨⟨by omega, hw.1.1.2⟩, hw.1.2⟩, hw.2⟩

theorem cellAt_putCell_self (lo a : Nat) (v : Byte) (l : List Host.Cell) (hw : cellsWf lo l = true) :
    cellAt a (putCell 0 a v l) = if v = 0 then none else some v := by
  induction l generalizing lo with
  | nil => unfold putCell; split <;> simp [cellAt]
  | cons c rest ih =>
    obtain ⟨e, x⟩ := c
    have hw' := hw
    simp only [cellsWf, Bool.and_eq_true, decide_eq_true_eq] at hw'
    unfold putCell
    by_cases h1 : a < e
    · simp only [h1, if_true]
      split
      · have hne : a ≠ e := by omega
        simp only [cellAt, hne, if_false]
        exact cellAt_below (e + 1) a rest hw'.2 (by omega)
      · simp [cellAt]
    · simp only [h1, if_false]
      by_cases h2 : a = e
      · subst h2
        simp only [if_true]
        split
        · exact cellAt_below (a + 1) a rest hw'.2 (by omega)
        · simp [cellAt]
      · simp only [h2, if_false, cellAt]
        exact ih (e + 1) hw'.2

theorem cellsWf_putCell (lo a : Nat) (v : Byte) (l : List Host.Cell) (hw : cellsWf lo l = true)
    (hlo : lo ≤ a) (hhi : a ≤ 0xFFF) : cellsWf lo (putCell 0 a v l) = true := by
  induction l generalizing lo with
  | nil =>
    unfold putCell
    split
    · rfl
    · simp only [cellsWf, Bool.and_eq_true, decide_eq_true_eq, bne_iff_ne]
      exact ⟨⟨⟨hlo, hhi⟩, by assumption⟩, trivial⟩
  | cons c rest ih =>
    obtain ⟨e, x⟩ := c
    have hw' := hw
    simp only [cellsWf, Bool.and_eq_true, decide_eq_true_eq, bne_iff_ne] at hw'
    unfold putCell
    split
    · split
      · exact hw
      · simp only [cellsWf, Bool.and_eq_true, decide_eq_true_eq, bne_iff_ne]
        exact ⟨⟨⟨hlo, hhi⟩, by assumption⟩, ⟨⟨by omega, hw'.1.1.2⟩, hw'.1.2⟩, hw'.2⟩
    · split
      · next h2 =>
        subst h2
        split
        · exact cellsWf_mono (a + 1) lo rest hw'.2 (by omega)
        · simp only [cellsWf, Bool.and_eq_true, decide_eq_true_eq, bne_iff_ne]
          exact ⟨⟨⟨hlo, hhi⟩, by assumption⟩, hw'.2⟩
      · simp only [cellsWf, Bool.and_eq_true, decide_eq_true_eq, bne_iff_ne]
        exact ⟨⟨⟨hw'.1.1.1, hw'.1.1.2⟩, hw'.1.2⟩, ih (e + 1) hw'.2 (by omega)⟩

/-! ## Memory -/

theorem unlisted_ram (m : Memory) (a : Nat) (h : 0x50 ≤ a) : m.unlisted a = 0 := by
  have : ¬ a < 80 := by omega
  simp [Memory.unlisted, this]

@[simp] theorem put_font (m : Memory) (a : Nat) (v : Byte) : (m.put a v).font = m.font := rfl

@[simp] theorem put_unlisted (m : Memory) (a b : Nat) (v : Byte) : (m.put a v).unlisted b = m.unlisted b := rfl

theorem byteAt_put_other (m : Memory) (a b : Nat) (v : Byte) (h : b ≠ a) :
    (m.put a v).byteAt b = m.byteAt b := by
  simp only [Memory.byteAt, put_unlisted]
  rw [show (m.put a v).cells = putCell (m.unlisted a) a v m.cells from rfl, cellAt_putCell_other _ _ _ _ _ h]

theorem byteAt_put_self (m : Memory) (a : Nat) (v : Byte) (hw : m.wf = true) (h : 0x50 ≤ a) :
    (m.put a v).byteAt a = v := by
  simp only [Memory.byteAt, put_unlisted]
  rw [show (m.put a v).cells = putCell (m.unlisted a) a v m.cells from rfl, unlisted_ram m a h,
    cellAt_putCell_self 0x50 a v m.cells hw]
  by_cases hv : v = 0#8 <;> simp [hv]

/-- The font region's bytes are FONT's. -/
theorem byteAt_font (m : Memory) (a : Nat) (hw : m.wf = true) (h : a < 80) : m.byteAt a = m.font[a] := by
  simp [Memory.byteAt, cellAt_below 0x50 a m.cells hw (by omega), Memory.unlisted, h]

theorem put_wf (m : Memory) (a : Nat) (v : Byte) (hw : m.wf = true) (hlo : 0x50 ≤ a) (hhi : a ≤ 0xFFF) :
    (m.put a v).wf = true := by
  unfold Memory.wf Memory.put
  simp only [unlisted_ram m a hlo]
  exact cellsWf_putCell 0x50 a v m.cells hw hlo hhi

theorem poke_wf (m : Memory) (a : Nat) (v : Byte) (hw : m.wf = true) (hhi : a ≤ 0xFFF) :
    (m.poke a v).wf = true := by
  unfold Memory.poke
  split
  · exact hw
  · exact put_wf m a v hw (by omega) hhi

theorem byteAt_poke_other (m : Memory) (a b : Nat) (v : Byte) (h : b ≠ a) :
    (m.poke a v).byteAt b = m.byteAt b := by
  unfold Memory.poke
  split
  · unfold Memory.byteAt Memory.unlisted
    cases cellAt b m.cells
    · by_cases hb : b < 80 <;> simp [hb, Ne.symm h]
    · rfl
  · exact byteAt_put_other m a b v h

theorem byteAt_poke_self (m : Memory) (a : Nat) (v : Byte) (hw : m.wf = true) : (m.poke a v).byteAt a = v := by
  unfold Memory.poke
  split
  · next h => simp [Memory.byteAt, Memory.unlisted, cellAt_below 0x50 a m.cells hw (by omega), h]
  · exact byteAt_put_self m a v hw (by omega)

/-! ## Consecutive bytes -/

theorem copyBytes_font (base : Nat) (bs : List Byte) (m : Memory) : (copyBytes base bs m).font = m.font := by
  induction bs generalizing base m with
  | nil => rfl
  | cons b bs ih => simp [copyBytes, ih]

theorem copyBytes_wf (base : Nat) (bs : List Byte) (m : Memory) (hw : m.wf = true) (hlo : 0x50 ≤ base)
    (hhi : base + bs.length ≤ 0x1000) : (copyBytes base bs m).wf = true := by
  induction bs generalizing base m with
  | nil => exact hw
  | cons b bs ih =>
    simp only [List.length_cons] at hhi
    exact ih (base + 1) _ (put_wf m base b hw hlo (by omega)) (by omega) (by omega)

theorem byteAt_copyBytes_outside (base a : Nat) (bs : List Byte) (m : Memory)
    (h : a < base ∨ base + bs.length ≤ a) : (copyBytes base bs m).byteAt a = m.byteAt a := by
  induction bs generalizing base m with
  | nil => rfl
  | cons b bs ih =>
    simp only [List.length_cons] at h
    simp only [copyBytes]
    rw [ih (base + 1) (m.put base b) (by omega), byteAt_put_other m base a b (by omega)]

theorem byteAt_copyBytes_inside (base k : Nat) (bs : List Byte) (m : Memory) (hw : m.wf = true)
    (hlo : 0x50 ≤ base) (hhi : base + bs.length ≤ 0x1000) (hk : k < bs.length) :
    (copyBytes base bs m).byteAt (base + k) = bs[k] := by
  induction bs generalizing base m k with
  | nil => simp at hk
  | cons b bs ih =>
    simp only [List.length_cons] at hhi hk
    have hw' := put_wf m base b hw hlo (by omega)
    cases k with
    | zero =>
      simp only [copyBytes, Nat.add_zero, List.getElem_cons_zero]
      rw [byteAt_copyBytes_outside (base + 1) base bs _ (by omega), byteAt_put_self m base b hw hlo]
    | succ k =>
      have := ih (base + 1) k (m.put base b) hw' (by omega) (by omega) (by omega)
      simpa [copyBytes, Nat.add_assoc, Nat.add_comm 1 k] using this

end Sys2Proof.Machine
end

