-- ==== Sys2Proof/Laws/State.lean ====
section
/-!
SUPPORT. One lemma per field per update of the state, each true by rfl, so that no proof unfolds a record update.
-/
namespace Sys2Proof.Machine

/-! ## setV -/

@[simp] theorem setV_mem (x : Nibble) (b : Byte) (s : State) : (setV x b s).mem = s.mem := rfl
@[simp] theorem setV_v (x : Nibble) (b : Byte) (s : State) : (setV x b s).v = s.v.set x.toNat b x.isLt := rfl
@[simp] theorem setV_i (x : Nibble) (b : Byte) (s : State) : (setV x b s).i = s.i := rfl
@[simp] theorem setV_pc (x : Nibble) (b : Byte) (s : State) : (setV x b s).pc = s.pc := rfl
@[simp] theorem setV_stack (x : Nibble) (b : Byte) (s : State) : (setV x b s).stack = s.stack := rfl
@[simp] theorem setV_sp (x : Nibble) (b : Byte) (s : State) : (setV x b s).sp = s.sp := rfl
@[simp] theorem setV_dt (x : Nibble) (b : Byte) (s : State) : (setV x b s).dt = s.dt := rfl
@[simp] theorem setV_st (x : Nibble) (b : Byte) (s : State) : (setV x b s).st = s.st := rfl
@[simp] theorem setV_fb (x : Nibble) (b : Byte) (s : State) : (setV x b s).fb = s.fb := rfl
@[simp] theorem setV_dirty (x : Nibble) (b : Byte) (s : State) : (setV x b s).dirty = s.dirty := rfl
@[simp] theorem setV_keys (x : Nibble) (b : Byte) (s : State) : (setV x b s).keys = s.keys := rfl
@[simp] theorem setV_run (x : Nibble) (b : Byte) (s : State) : (setV x b s).run = s.run := rfl
@[simp] theorem setV_mode (x : Nibble) (b : Byte) (s : State) : (setV x b s).mode = s.mode := rfl
@[simp] theorem setV_err (x : Nibble) (b : Byte) (s : State) : (setV x b s).err = s.err := rfl
@[simp] theorem setV_soundOn (x : Nibble) (b : Byte) (s : State) : (setV x b s).soundOn = s.soundOn := rfl
@[simp] theorem setV_inputs (x : Nibble) (b : Byte) (s : State) : (setV x b s).inputs = s.inputs := rfl
@[simp] theorem setV_cycleNo (x : Nibble) (b : Byte) (s : State) : (setV x b s).cycleNo = s.cycleNo := rfl

/-! ## setVF -/

@[simp] theorem setVF_mem (b : Byte) (s : State) : (setVF b s).mem = s.mem := rfl
@[simp] theorem setVF_v (b : Byte) (s : State) : (setVF b s).v = s.v.set 15 b := rfl
@[simp] theorem setVF_i (b : Byte) (s : State) : (setVF b s).i = s.i := rfl
@[simp] theorem setVF_pc (b : Byte) (s : State) : (setVF b s).pc = s.pc := rfl
@[simp] theorem setVF_stack (b : Byte) (s : State) : (setVF b s).stack = s.stack := rfl
@[simp] theorem setVF_sp (b : Byte) (s : State) : (setVF b s).sp = s.sp := rfl
@[simp] theorem setVF_dt (b : Byte) (s : State) : (setVF b s).dt = s.dt := rfl
@[simp] theorem setVF_st (b : Byte) (s : State) : (setVF b s).st = s.st := rfl
@[simp] theorem setVF_fb (b : Byte) (s : State) : (setVF b s).fb = s.fb := rfl
@[simp] theorem setVF_dirty (b : Byte) (s : State) : (setVF b s).dirty = s.dirty := rfl
@[simp] theorem setVF_keys (b : Byte) (s : State) : (setVF b s).keys = s.keys := rfl
@[simp] theorem setVF_run (b : Byte) (s : State) : (setVF b s).run = s.run := rfl
@[simp] theorem setVF_mode (b : Byte) (s : State) : (setVF b s).mode = s.mode := rfl
@[simp] theorem setVF_err (b : Byte) (s : State) : (setVF b s).err = s.err := rfl
@[simp] theorem setVF_soundOn (b : Byte) (s : State) : (setVF b s).soundOn = s.soundOn := rfl
@[simp] theorem setVF_inputs (b : Byte) (s : State) : (setVF b s).inputs = s.inputs := rfl
@[simp] theorem setVF_cycleNo (b : Byte) (s : State) : (setVF b s).cycleNo = s.cycleNo := rfl

/-! ## advancePc -/

@[simp] theorem advancePc_mem (k : Nat) (s : State) : (advancePc k s).mem = s.mem := rfl
@[simp] theorem advancePc_v (k : Nat) (s : State) : (advancePc k s).v = s.v := rfl
@[simp] theorem advancePc_i (k : Nat) (s : State) : (advancePc k s).i = s.i := rfl
@[simp] theorem advancePc_pc (k : Nat) (s : State) : (advancePc k s).pc = BitVec.ofNat 16 (s.pc.toNat + k) := rfl
@[simp] theorem advancePc_stack (k : Nat) (s : State) : (advancePc k s).stack = s.stack := rfl
@[simp] theorem advancePc_sp (k : Nat) (s : State) : (advancePc k s).sp = s.sp := rfl
@[simp] theorem advancePc_dt (k : Nat) (s : State) : (advancePc k s).dt = s.dt := rfl
@[simp] theorem advancePc_st (k : Nat) (s : State) : (advancePc k s).st = s.st := rfl
@[simp] theorem advancePc_fb (k : Nat) (s : State) : (advancePc k s).fb = s.fb := rfl
@[simp] theorem advancePc_dirty (k : Nat) (s : State) : (advancePc k s).dirty = s.dirty := rfl
@[simp] theorem advancePc_keys (k : Nat) (s : State) : (advancePc k s).keys = s.keys := rfl
@[simp] theorem advancePc_run (k : Nat) (s : State) : (advancePc k s).run = s.run := rfl
@[simp] theorem advancePc_mode (k : Nat) (s : State) : (advancePc k s).mode = s.mode := rfl
@[simp] theorem advancePc_err (k : Nat) (s : State) : (advancePc k s).err = s.err := rfl
@[simp] theorem advancePc_soundOn (k : Nat) (s : State) : (advancePc k s).soundOn = s.soundOn := rfl
@[simp] theorem advancePc_inputs (k : Nat) (s : State) : (advancePc k s).inputs = s.inputs := rfl
@[simp] theorem advancePc_cycleNo (k : Nat) (s : State) : (advancePc k s).cycleNo = s.cycleNo := rfl

/-! ## jumpTo -/

@[simp] theorem jumpTo_mem (w : Word) (s : State) : (jumpTo w s).mem = s.mem := rfl
@[simp] theorem jumpTo_v (w : Word) (s : State) : (jumpTo w s).v = s.v := rfl
@[simp] theorem jumpTo_i (w : Word) (s : State) : (jumpTo w s).i = s.i := rfl
@[simp] theorem jumpTo_pc (w : Word) (s : State) : (jumpTo w s).pc = w := rfl
@[simp] theorem jumpTo_stack (w : Word) (s : State) : (jumpTo w s).stack = s.stack := rfl
@[simp] theorem jumpTo_sp (w : Word) (s : State) : (jumpTo w s).sp = s.sp := rfl
@[simp] theorem jumpTo_dt (w : Word) (s : State) : (jumpTo w s).dt = s.dt := rfl
@[simp] theorem jumpTo_st (w : Word) (s : State) : (jumpTo w s).st = s.st := rfl
@[simp] theorem jumpTo_fb (w : Word) (s : State) : (jumpTo w s).fb = s.fb := rfl
@[simp] theorem jumpTo_dirty (w : Word) (s : State) : (jumpTo w s).dirty = s.dirty := rfl
@[simp] theorem jumpTo_keys (w : Word) (s : State) : (jumpTo w s).keys = s.keys := rfl
@[simp] theorem jumpTo_run (w : Word) (s : State) : (jumpTo w s).run = s.run := rfl
@[simp] theorem jumpTo_mode (w : Word) (s : State) : (jumpTo w s).mode = s.mode := rfl
@[simp] theorem jumpTo_err (w : Word) (s : State) : (jumpTo w s).err = s.err := rfl
@[simp] theorem jumpTo_soundOn (w : Word) (s : State) : (jumpTo w s).soundOn = s.soundOn := rfl
@[simp] theorem jumpTo_inputs (w : Word) (s : State) : (jumpTo w s).inputs = s.inputs := rfl
@[simp] theorem jumpTo_cycleNo (w : Word) (s : State) : (jumpTo w s).cycleNo = s.cycleNo := rfl

/-! ## raiseFault -/

@[simp] theorem raiseFault_mem (f : Raised) (w : Option Word) (s : State) : (raiseFault f w s).mem = s.mem := rfl
@[simp] theorem raiseFault_v (f : Raised) (w : Option Word) (s : State) : (raiseFault f w s).v = s.v := rfl
@[simp] theorem raiseFault_i (f : Raised) (w : Option Word) (s : State) : (raiseFault f w s).i = s.i := rfl
@[simp] theorem raiseFault_pc (f : Raised) (w : Option Word) (s : State) : (raiseFault f w s).pc = s.pc := rfl
@[simp] theorem raiseFault_stack (f : Raised) (w : Option Word) (s : State) : (raiseFault f w s).stack = s.stack := rfl
@[simp] theorem raiseFault_sp (f : Raised) (w : Option Word) (s : State) : (raiseFault f w s).sp = s.sp := rfl
@[simp] theorem raiseFault_dt (f : Raised) (w : Option Word) (s : State) : (raiseFault f w s).dt = s.dt := rfl
@[simp] theorem raiseFault_st (f : Raised) (w : Option Word) (s : State) : (raiseFault f w s).st = s.st := rfl
@[simp] theorem raiseFault_fb (f : Raised) (w : Option Word) (s : State) : (raiseFault f w s).fb = s.fb := rfl
@[simp] theorem raiseFault_dirty (f : Raised) (w : Option Word) (s : State) : (raiseFault f w s).dirty = s.dirty := rfl
@[simp] theorem raiseFault_keys (f : Raised) (w : Option Word) (s : State) : (raiseFault f w s).keys = s.keys := rfl
@[simp] theorem raiseFault_run (f : Raised) (w : Option Word) (s : State) : (raiseFault f w s).run = false := rfl
@[simp] theorem raiseFault_mode (f : Raised) (w : Option Word) (s : State) : (raiseFault f w s).mode = s.mode := rfl
@[simp] theorem raiseFault_err (f : Raised) (w : Option Word) (s : State) : (raiseFault f w s).err = { kind := f.kind, pc := s.pc, word := w, info := f.info } := rfl
@[simp] theorem raiseFault_soundOn (f : Raised) (w : Option Word) (s : State) : (raiseFault f w s).soundOn = s.soundOn := rfl
@[simp] theorem raiseFault_inputs (f : Raised) (w : Option Word) (s : State) : (raiseFault f w s).inputs = s.inputs := rfl
@[simp] theorem raiseFault_cycleNo (f : Raised) (w : Option Word) (s : State) : (raiseFault f w s).cycleNo = s.cycleNo := rfl

/-! ## clearDirty -/

@[simp] theorem clearDirty_mem (s : State) : (clearDirty s).mem = s.mem := rfl
@[simp] theorem clearDirty_v (s : State) : (clearDirty s).v = s.v := rfl
@[simp] theorem clearDirty_i (s : State) : (clearDirty s).i = s.i := rfl
@[simp] theorem clearDirty_pc (s : State) : (clearDirty s).pc = s.pc := rfl
@[simp] theorem clearDirty_stack (s : State) : (clearDirty s).stack = s.stack := rfl
@[simp] theorem clearDirty_sp (s : State) : (clearDirty s).sp = s.sp := rfl
@[simp] theorem clearDirty_dt (s : State) : (clearDirty s).dt = s.dt := rfl
@[simp] theorem clearDirty_st (s : State) : (clearDirty s).st = s.st := rfl
@[simp] theorem clearDirty_fb (s : State) : (clearDirty s).fb = s.fb := rfl
@[simp] theorem clearDirty_dirty (s : State) : (clearDirty s).dirty = false := rfl
@[simp] theorem clearDirty_keys (s : State) : (clearDirty s).keys = s.keys := rfl
@[simp] theorem clearDirty_run (s : State) : (clearDirty s).run = s.run := rfl
@[simp] theorem clearDirty_mode (s : State) : (clearDirty s).mode = s.mode := rfl
@[simp] theorem clearDirty_err (s : State) : (clearDirty s).err = s.err := rfl
@[simp] theorem clearDirty_soundOn (s : State) : (clearDirty s).soundOn = s.soundOn := rfl
@[simp] theorem clearDirty_inputs (s : State) : (clearDirty s).inputs = s.inputs := rfl
@[simp] theorem clearDirty_cycleNo (s : State) : (clearDirty s).cycleNo = s.cycleNo := rfl

/-! ## hostClear -/

@[simp] theorem hostClear_mem (s : State) : (hostClear s).mem = s.mem := rfl
@[simp] theorem hostClear_v (s : State) : (hostClear s).v = s.v := rfl
@[simp] theorem hostClear_i (s : State) : (hostClear s).i = s.i := rfl
@[simp] theorem hostClear_pc (s : State) : (hostClear s).pc = s.pc := rfl
@[simp] theorem hostClear_stack (s : State) : (hostClear s).stack = s.stack := rfl
@[simp] theorem hostClear_sp (s : State) : (hostClear s).sp = s.sp := rfl
@[simp] theorem hostClear_dt (s : State) : (hostClear s).dt = s.dt := rfl
@[simp] theorem hostClear_st (s : State) : (hostClear s).st = s.st := rfl
@[simp] theorem hostClear_fb (s : State) : (hostClear s).fb = s.fb := rfl
@[simp] theorem hostClear_dirty (s : State) : (hostClear s).dirty = (s.dirty && !(turn s).clearDirty) := rfl
@[simp] theorem hostClear_keys (s : State) : (hostClear s).keys = s.keys := rfl
@[simp] theorem hostClear_run (s : State) : (hostClear s).run = s.run := rfl
@[simp] theorem hostClear_mode (s : State) : (hostClear s).mode = s.mode := rfl
@[simp] theorem hostClear_err (s : State) : (hostClear s).err = s.err := rfl
@[simp] theorem hostClear_soundOn (s : State) : (hostClear s).soundOn = s.soundOn := rfl
@[simp] theorem hostClear_inputs (s : State) : (hostClear s).inputs = s.inputs := rfl
@[simp] theorem hostClear_cycleNo (s : State) : (hostClear s).cycleNo = s.cycleNo := rfl

/-! ## stopRun -/

@[simp] theorem stopRun_mem (s : State) : (stopRun s).mem = s.mem := rfl
@[simp] theorem stopRun_v (s : State) : (stopRun s).v = s.v := rfl
@[simp] theorem stopRun_i (s : State) : (stopRun s).i = s.i := rfl
@[simp] theorem stopRun_pc (s : State) : (stopRun s).pc = s.pc := rfl
@[simp] theorem stopRun_stack (s : State) : (stopRun s).stack = s.stack := rfl
@[simp] theorem stopRun_sp (s : State) : (stopRun s).sp = s.sp := rfl
@[simp] theorem stopRun_dt (s : State) : (stopRun s).dt = s.dt := rfl
@[simp] theorem stopRun_st (s : State) : (stopRun s).st = s.st := rfl
@[simp] theorem stopRun_fb (s : State) : (stopRun s).fb = s.fb := rfl
@[simp] theorem stopRun_dirty (s : State) : (stopRun s).dirty = s.dirty := rfl
@[simp] theorem stopRun_keys (s : State) : (stopRun s).keys = s.keys := rfl
@[simp] theorem stopRun_run (s : State) : (stopRun s).run = false := rfl
@[simp] theorem stopRun_mode (s : State) : (stopRun s).mode = s.mode := rfl
@[simp] theorem stopRun_err (s : State) : (stopRun s).err = s.err := rfl
@[simp] theorem stopRun_soundOn (s : State) : (stopRun s).soundOn = false := rfl
@[simp] theorem stopRun_inputs (s : State) : (stopRun s).inputs = s.inputs := rfl
@[simp] theorem stopRun_cycleNo (s : State) : (stopRun s).cycleNo = s.cycleNo := rfl

/-! ## refreshKeys -/

@[simp] theorem refreshKeys_mem (s : State) : (refreshKeys s).mem = s.mem := rfl
@[simp] theorem refreshKeys_v (s : State) : (refreshKeys s).v = s.v := rfl
@[simp] theorem refreshKeys_i (s : State) : (refreshKeys s).i = s.i := rfl
@[simp] theorem refreshKeys_pc (s : State) : (refreshKeys s).pc = s.pc := rfl
@[simp] theorem refreshKeys_stack (s : State) : (refreshKeys s).stack = s.stack := rfl
@[simp] theorem refreshKeys_sp (s : State) : (refreshKeys s).sp = s.sp := rfl
@[simp] theorem refreshKeys_dt (s : State) : (refreshKeys s).dt = s.dt := rfl
@[simp] theorem refreshKeys_st (s : State) : (refreshKeys s).st = s.st := rfl
@[simp] theorem refreshKeys_fb (s : State) : (refreshKeys s).fb = s.fb := rfl
@[simp] theorem refreshKeys_dirty (s : State) : (refreshKeys s).dirty = s.dirty := rfl
@[simp] theorem refreshKeys_keys (s : State) : (refreshKeys s).keys = (turn s).keysIn := rfl
@[simp] theorem refreshKeys_run (s : State) : (refreshKeys s).run = s.run := rfl
@[simp] theorem refreshKeys_mode (s : State) : (refreshKeys s).mode = s.mode := rfl
@[simp] theorem refreshKeys_err (s : State) : (refreshKeys s).err = s.err := rfl
@[simp] theorem refreshKeys_soundOn (s : State) : (refreshKeys s).soundOn = s.soundOn := rfl
@[simp] theorem refreshKeys_inputs (s : State) : (refreshKeys s).inputs = s.inputs := rfl
@[simp] theorem refreshKeys_cycleNo (s : State) : (refreshKeys s).cycleNo = s.cycleNo := rfl

/-! ## timerPhase -/

@[simp] theorem timerPhase_mem (s : State) : (timerPhase s).mem = s.mem := rfl
@[simp] theorem timerPhase_v (s : State) : (timerPhase s).v = s.v := rfl
@[simp] theorem timerPhase_i (s : State) : (timerPhase s).i = s.i := rfl
@[simp] theorem timerPhase_pc (s : State) : (timerPhase s).pc = s.pc := rfl
@[simp] theorem timerPhase_stack (s : State) : (timerPhase s).stack = s.stack := rfl
@[simp] theorem timerPhase_sp (s : State) : (timerPhase s).sp = s.sp := rfl
@[simp] theorem timerPhase_dt (s : State) : (timerPhase s).dt = tick s.dt := rfl
@[simp] theorem timerPhase_st (s : State) : (timerPhase s).st = tick s.st := rfl
@[simp] theorem timerPhase_fb (s : State) : (timerPhase s).fb = s.fb := rfl
@[simp] theorem timerPhase_dirty (s : State) : (timerPhase s).dirty = s.dirty := rfl
@[simp] theorem timerPhase_keys (s : State) : (timerPhase s).keys = s.keys := rfl
@[simp] theorem timerPhase_run (s : State) : (timerPhase s).run = s.run := rfl
@[simp] theorem timerPhase_mode (s : State) : (timerPhase s).mode = s.mode := rfl
@[simp] theorem timerPhase_err (s : State) : (timerPhase s).err = s.err := rfl
@[simp] theorem timerPhase_soundOn (s : State) : (timerPhase s).soundOn = (s.st != 0) := rfl
@[simp] theorem timerPhase_inputs (s : State) : (timerPhase s).inputs = s.inputs := rfl
@[simp] theorem timerPhase_cycleNo (s : State) : (timerPhase s).cycleNo = s.cycleNo := rfl

/-! ## endTurn -/

@[simp] theorem endTurn_mem (s : State) : (endTurn s).mem = s.mem := rfl
@[simp] theorem endTurn_v (s : State) : (endTurn s).v = s.v := rfl
@[simp] theorem endTurn_i (s : State) : (endTurn s).i = s.i := rfl
@[simp] theorem endTurn_pc (s : State) : (endTurn s).pc = s.pc := rfl
@[simp] theorem endTurn_stack (s : State) : (endTurn s).stack = s.stack := rfl
@[simp] theorem endTurn_sp (s : State) : (endTurn s).sp = s.sp := rfl
@[simp] theorem endTurn_dt (s : State) : (endTurn s).dt = s.dt := rfl
@[simp] theorem endTurn_st (s : State) : (endTurn s).st = s.st := rfl
@[simp] theorem endTurn_fb (s : State) : (endTurn s).fb = s.fb := rfl
@[simp] theorem endTurn_dirty (s : State) : (endTurn s).dirty = s.dirty := rfl
@[simp] theorem endTurn_keys (s : State) : (endTurn s).keys = s.keys := rfl
@[simp] theorem endTurn_run (s : State) : (endTurn s).run = s.run := rfl
@[simp] theorem endTurn_mode (s : State) : (endTurn s).mode = s.mode := rfl
@[simp] theorem endTurn_err (s : State) : (endTurn s).err = s.err := rfl
@[simp] theorem endTurn_soundOn (s : State) : (endTurn s).soundOn = s.soundOn := rfl
@[simp] theorem endTurn_inputs (s : State) : (endTurn s).inputs = s.inputs.tail := rfl
@[simp] theorem endTurn_cycleNo (s : State) : (endTurn s).cycleNo = s.cycleNo + 1 := rfl

/-! ## loadFail -/

@[simp] theorem loadFail_mem (n : Nat) (s : State) : (loadFail n s).mem = s.mem := rfl
@[simp] theorem loadFail_v (n : Nat) (s : State) : (loadFail n s).v = s.v := rfl
@[simp] theorem loadFail_i (n : Nat) (s : State) : (loadFail n s).i = s.i := rfl
@[simp] theorem loadFail_pc (n : Nat) (s : State) : (loadFail n s).pc = s.pc := rfl
@[simp] theorem loadFail_stack (n : Nat) (s : State) : (loadFail n s).stack = s.stack := rfl
@[simp] theorem loadFail_sp (n : Nat) (s : State) : (loadFail n s).sp = s.sp := rfl
@[simp] theorem loadFail_dt (n : Nat) (s : State) : (loadFail n s).dt = s.dt := rfl
@[simp] theorem loadFail_st (n : Nat) (s : State) : (loadFail n s).st = s.st := rfl
@[simp] theorem loadFail_fb (n : Nat) (s : State) : (loadFail n s).fb = s.fb := rfl
@[simp] theorem loadFail_dirty (n : Nat) (s : State) : (loadFail n s).dirty = s.dirty := rfl
@[simp] theorem loadFail_keys (n : Nat) (s : State) : (loadFail n s).keys = s.keys := rfl
@[simp] theorem loadFail_run (n : Nat) (s : State) : (loadFail n s).run = false := rfl
@[simp] theorem loadFail_mode (n : Nat) (s : State) : (loadFail n s).mode = s.mode := rfl
@[simp] theorem loadFail_err (n : Nat) (s : State) : (loadFail n s).err = { kind := .romLoad, pc := s.pc, word := none, info := n } := rfl
@[simp] theorem loadFail_soundOn (n : Nat) (s : State) : (loadFail n s).soundOn = s.soundOn := rfl
@[simp] theorem loadFail_inputs (n : Nat) (s : State) : (loadFail n s).inputs = s.inputs := rfl
@[simp] theorem loadFail_cycleNo (n : Nat) (s : State) : (loadFail n s).cycleNo = s.cycleNo := rfl

/-! ## skipIf: only pc -/

theorem skipIf_eq (c : Bool) (s : State) : skipIf c s = advancePc (if c then 4 else 2) s := by
  cases c <;> rfl

@[simp] theorem skipIf_mem (c : Bool) (s : State) : (skipIf c s).mem = s.mem := by cases c <;> rfl
@[simp] theorem skipIf_v (c : Bool) (s : State) : (skipIf c s).v = s.v := by cases c <;> rfl
@[simp] theorem skipIf_i (c : Bool) (s : State) : (skipIf c s).i = s.i := by cases c <;> rfl
@[simp] theorem skipIf_pc (c : Bool) (s : State) :
    (skipIf c s).pc = BitVec.ofNat 16 (s.pc.toNat + if c then 4 else 2) := by cases c <;> rfl
@[simp] theorem skipIf_stack (c : Bool) (s : State) : (skipIf c s).stack = s.stack := by cases c <;> rfl
@[simp] theorem skipIf_sp (c : Bool) (s : State) : (skipIf c s).sp = s.sp := by cases c <;> rfl
@[simp] theorem skipIf_dt (c : Bool) (s : State) : (skipIf c s).dt = s.dt := by cases c <;> rfl
@[simp] theorem skipIf_st (c : Bool) (s : State) : (skipIf c s).st = s.st := by cases c <;> rfl
@[simp] theorem skipIf_fb (c : Bool) (s : State) : (skipIf c s).fb = s.fb := by cases c <;> rfl
@[simp] theorem skipIf_dirty (c : Bool) (s : State) : (skipIf c s).dirty = s.dirty := by cases c <;> rfl
@[simp] theorem skipIf_keys (c : Bool) (s : State) : (skipIf c s).keys = s.keys := by cases c <;> rfl
@[simp] theorem skipIf_run (c : Bool) (s : State) : (skipIf c s).run = s.run := by cases c <;> rfl
@[simp] theorem skipIf_mode (c : Bool) (s : State) : (skipIf c s).mode = s.mode := by cases c <;> rfl
@[simp] theorem skipIf_err (c : Bool) (s : State) : (skipIf c s).err = s.err := by cases c <;> rfl
@[simp] theorem skipIf_soundOn (c : Bool) (s : State) : (skipIf c s).soundOn = s.soundOn := by cases c <;> rfl
@[simp] theorem skipIf_inputs (c : Bool) (s : State) : (skipIf c s).inputs = s.inputs := by cases c <;> rfl
@[simp] theorem skipIf_cycleNo (c : Bool) (s : State) : (skipIf c s).cycleNo = s.cycleNo := by cases c <;> rfl

/-! ## closeCycle: the timer phase or the sound off -/

theorem closeCycle_running (s : State) (h : s.run = true) : closeCycle s = timerPhase s := by simp [closeCycle, h]

theorem closeCycle_halted (s : State) (h : s.run = false) : closeCycle s = { s with soundOn := false } := by
  simp [closeCycle, h]

@[simp] theorem closeCycle_mem (s : State) : (closeCycle s).mem = s.mem := by unfold closeCycle; split <;> rfl
@[simp] theorem closeCycle_v (s : State) : (closeCycle s).v = s.v := by unfold closeCycle; split <;> rfl
@[simp] theorem closeCycle_i (s : State) : (closeCycle s).i = s.i := by unfold closeCycle; split <;> rfl
@[simp] theorem closeCycle_pc (s : State) : (closeCycle s).pc = s.pc := by unfold closeCycle; split <;> rfl
@[simp] theorem closeCycle_stack (s : State) : (closeCycle s).stack = s.stack := by unfold closeCycle; split <;> rfl
@[simp] theorem closeCycle_sp (s : State) : (closeCycle s).sp = s.sp := by unfold closeCycle; split <;> rfl
@[simp] theorem closeCycle_dt (s : State) : (closeCycle s).dt = if s.run then tick s.dt else s.dt := by
  unfold closeCycle; split <;> rfl
@[simp] theorem closeCycle_st (s : State) : (closeCycle s).st = if s.run then tick s.st else s.st := by
  unfold closeCycle; split <;> rfl
@[simp] theorem closeCycle_fb (s : State) : (closeCycle s).fb = s.fb := by unfold closeCycle; split <;> rfl
@[simp] theorem closeCycle_dirty (s : State) : (closeCycle s).dirty = s.dirty := by unfold closeCycle; split <;> rfl
@[simp] theorem closeCycle_keys (s : State) : (closeCycle s).keys = s.keys := by unfold closeCycle; split <;> rfl
@[simp] theorem closeCycle_run (s : State) : (closeCycle s).run = s.run := by unfold closeCycle; split <;> rfl
@[simp] theorem closeCycle_mode (s : State) : (closeCycle s).mode = s.mode := by unfold closeCycle; split <;> rfl
@[simp] theorem closeCycle_err (s : State) : (closeCycle s).err = s.err := by unfold closeCycle; split <;> rfl
@[simp] theorem closeCycle_soundOn (s : State) : (closeCycle s).soundOn = (s.run && s.st != 0) := by
  cases h : s.run <;> simp [closeCycle, h]
@[simp] theorem closeCycle_inputs (s : State) : (closeCycle s).inputs = s.inputs := by unfold closeCycle; split <;> rfl
@[simp] theorem closeCycle_cycleNo (s : State) : (closeCycle s).cycleNo = s.cycleNo := by unfold closeCycle; split <;> rfl

/-! ## setResultFlag: a register, VF and pc -/

@[simp] theorem setResultFlag_mem (x : Nibble) (r g : Byte) (s : State) :
    (setResultFlag x r g s).mem = s.mem := rfl
@[simp] theorem setResultFlag_v (x : Nibble) (r g : Byte) (s : State) :
    (setResultFlag x r g s).v = (s.v.set x.toNat r x.isLt).set 15 g := rfl
@[simp] theorem setResultFlag_i (x : Nibble) (r g : Byte) (s : State) :
    (setResultFlag x r g s).i = s.i := rfl
@[simp] theorem setResultFlag_pc (x : Nibble) (r g : Byte) (s : State) :
    (setResultFlag x r g s).pc = BitVec.ofNat 16 (s.pc.toNat + 2) := rfl
@[simp] theorem setResultFlag_stack (x : Nibble) (r g : Byte) (s : State) :
    (setResultFlag x r g s).stack = s.stack := rfl
@[simp] theorem setResultFlag_sp (x : Nibble) (r g : Byte) (s : State) :
    (setResultFlag x r g s).sp = s.sp := rfl
@[simp] theorem setResultFlag_dt (x : Nibble) (r g : Byte) (s : State) :
    (setResultFlag x r g s).dt = s.dt := rfl
@[simp] theorem setResultFlag_st (x : Nibble) (r g : Byte) (s : State) :
    (setResultFlag x r g s).st = s.st := rfl
@[simp] theorem setResultFlag_fb (x : Nibble) (r g : Byte) (s : State) :
    (setResultFlag x r g s).fb = s.fb := rfl
@[simp] theorem setResultFlag_dirty (x : Nibble) (r g : Byte) (s : State) :
    (setResultFlag x r g s).dirty = s.dirty := rfl
@[simp] theorem setResultFlag_keys (x : Nibble) (r g : Byte) (s : State) :
    (setResultFlag x r g s).keys = s.keys := rfl
@[simp] theorem setResultFlag_run (x : Nibble) (r g : Byte) (s : State) :
    (setResultFlag x r g s).run = s.run := rfl
@[simp] theorem setResultFlag_mode (x : Nibble) (r g : Byte) (s : State) :
    (setResultFlag x r g s).mode = s.mode := rfl
@[simp] theorem setResultFlag_err (x : Nibble) (r g : Byte) (s : State) :
    (setResultFlag x r g s).err = s.err := rfl
@[simp] theorem setResultFlag_soundOn (x : Nibble) (r g : Byte) (s : State) :
    (setResultFlag x r g s).soundOn = s.soundOn := rfl
@[simp] theorem setResultFlag_inputs (x : Nibble) (r g : Byte) (s : State) :
    (setResultFlag x r g s).inputs = s.inputs := rfl
@[simp] theorem setResultFlag_cycleNo (x : Nibble) (r g : Byte) (s : State) :
    (setResultFlag x r g s).cycleNo = s.cycleNo := rfl

end Sys2Proof.Machine
end

