-- ==== Sys2Proof/Laws/Ops.lean ====
section
/-!
SUPPORT. One lemma per shared operation that says everything it can do, for citing instead of unfolding.
-/
namespace Sys2Proof.Machine

/-! ## Registers -/

theorem getV_of_v {s t : State} (h : t.v = s.v) (r : Nibble) : getV r t = getV r s := by simp [getV, h]

theorem getV_setV (x r : Nibble) (b : Byte) (s : State) :
    getV r (setV x b s) = if r = x then b else getV r s := by
  simp only [getV, setV_v, Vector.getElem_set, BitVec.toNat_inj]
  by_cases h : r = x
  · subst h; simp
  · simp [h, Ne.symm h]

@[simp] theorem getV_setV_self (x : Nibble) (b : Byte) (s : State) : getV x (setV x b s) = b := by
  simp [getV_setV]

theorem getV_setVF (r : Nibble) (b : Byte) (s : State) :
    getV r (setVF b s) = if r = 15 then b else getV r s := getV_setV 15 r b s

@[simp] theorem getV_advancePc (r : Nibble) (k : Nat) (s : State) : getV r (advancePc k s) = getV r s := rfl
@[simp] theorem getV_jumpTo (r : Nibble) (w : Word) (s : State) : getV r (jumpTo w s) = getV r s := rfl
@[simp] theorem getV_skipIf (r : Nibble) (c : Bool) (s : State) : getV r (skipIf c s) = getV r s :=
  getV_of_v (skipIf_v c s) r
@[simp] theorem getV_raiseFault (r : Nibble) (f : Raised) (w : Option Word) (s : State) :
    getV r (raiseFault f w s) = getV r s := rfl

/-- A flag-writing operation: the flag in VF, also when x = F (R151). -/
theorem getV_setResultFlag (x r : Nibble) (b g : Byte) (s : State) :
    getV r (setResultFlag x b g s) = if r = 15 then g else if r = x then b else getV r s := by
  simp only [setResultFlag, getV_advancePc, getV_setVF, getV_setV]

theorem flagByte_toNat (b : Bool) : (flagByte b).toNat = if b then 1 else 0 := by cases b <;> rfl

theorem length_regsUpTo (x : Nibble) (s : State) : (regsUpTo x s).length = x.toNat + 1 := by
  have := x.isLt
  simp [regsUpTo]; omega

theorem regsUpTo_get (x : Nibble) (s : State) (k : Nat) (h : k < (regsUpTo x s).length) :
    (regsUpTo x s)[k] = getV (BitVec.ofNat 4 k) s := by
  have hx := x.isLt
  have hk : k < 16 := by rw [length_regsUpTo] at h; omega
  simp only [regsUpTo, List.getElem_take, Vector.getElem_toList, getV, BitVec.toNat_ofNat]
  congr 1
  omega

/-- A bulk load writes `v` only. -/
theorem loadRegs_eq (k : Nat) (bs : List Byte) (s : State) :
    loadRegs k bs s = { s with v := (loadRegs k bs s).v } := by
  induction bs generalizing k s with
  | nil => rfl
  | cons b bs ih =>
    simp only [loadRegs]
    conv_lhs => rw [ih]
    rfl

theorem getV_loadRegs (k : Nat) (bs : List Byte) (s : State) (r : Nibble) (hk : k + bs.length ≤ 16) :
    getV r (loadRegs k bs s) =
      if h : k ≤ r.toNat ∧ r.toNat < k + bs.length then bs[r.toNat - k]'(by omega) else getV r s := by
  induction bs generalizing k s with
  | nil => simp [loadRegs]
  | cons b bs ih =>
    simp only [List.length_cons] at hk
    simp only [loadRegs, List.length_cons]
    rw [ih (k + 1) _ (by omega)]
    by_cases h1 : k + 1 ≤ r.toNat ∧ r.toNat < k + 1 + bs.length
    · rw [dif_pos h1, dif_pos (by omega)]
      obtain ⟨j, hj⟩ : ∃ j, r.toNat - k = j + 1 := ⟨r.toNat - k - 1, by omega⟩
      have hj' : r.toNat - (k + 1) = j := by omega
      simp only [hj, hj', List.getElem_cons_succ]
    · rw [dif_neg h1, getV_setV]
      by_cases h2 : r = BitVec.ofNat 4 k
      · have : r.toNat = k := by rw [h2]; simp; omega
        rw [if_pos h2, dif_pos (by omega)]
        simp [this]
      · have : r.toNat ≠ k := fun hc => h2 (by apply BitVec.eq_of_toNat_eq; simp; omega)
        rw [if_neg h2, dif_neg (by omega)]

/-! ## Checks and accesses -/

theorem checkRead_ok {lo hi : Nat} (h : hi ≤ 0xFFF) : checkRead lo hi = .ok () := by
  simp [checkRead]; omega

theorem checkRead_range {lo hi : Nat} (h : 0xFFF < hi) : checkRead lo hi = .error ⟨.memRange, max lo 0x1000⟩ := by
  simp [checkRead, h]

theorem checkWrite_ok {lo hi : Nat} (h : hi ≤ 0xFFF) (h' : 0x50 ≤ lo) : checkWrite lo hi = .ok () := by
  have h1 : ¬ 0xFFF < hi := by omega
  have h2 : ¬ lo ≤ 0x04F := by omega
  simp only [checkWrite, h1, h2, if_false]

theorem checkWrite_range {lo hi : Nat} (h : 0xFFF < hi) :
    checkWrite lo hi = .error ⟨.memRange, max lo 0x1000⟩ := by simp [checkWrite, h]

theorem checkWrite_protect {lo hi : Nat} (h : hi ≤ 0xFFF) (h' : lo < 0x50) :
    checkWrite lo hi = .error ⟨.memProtect, lo⟩ := by
  have h1 : ¬ 0xFFF < hi := by omega
  have h2 : lo ≤ 0x04F := by omega
  simp only [checkWrite, h1, h2, if_false, if_true]

theorem memRead_ok {a : Nat} (s : State) (h : a ≤ 0xFFF) : memRead a s = .ok (s.mem.byteAt a) := by
  have h1 : ¬ 0xFFF < a := by omega
  simp only [memRead, h1, if_false]

theorem memWrite_ok {a : Nat} (v : Byte) (s : State) (h : 0x50 ≤ a) (h' : a ≤ 0xFFF) :
    memWrite a v s = .ok { s with mem := s.mem.put a v } := by
  have h1 : ¬ 0xFFF < a := by omega
  have h2 : ¬ a ≤ 0x04F := by omega
  simp only [memWrite, h1, h2, if_false]

/-- What a bulk read answers when its whole range exists. -/
theorem readBytes_ok (base n : Nat) (s : State) (h : base + n ≤ 0x1000) :
    readBytes base n s = .ok ((List.range' base n).map s.mem.byteAt) := by
  induction n generalizing base with
  | zero => rfl
  | succ n ih =>
    simp only [readBytes, memRead_ok s (show base ≤ 0xFFF by omega), ih (base + 1) (by omega)]
    simp [List.range'_succ]

/-- What a bulk write answers when its whole range may be written. -/
theorem writeBytes_ok (base : Nat) (bs : List Byte) (s : State) (hlo : 0x50 ≤ base)
    (hhi : base + bs.length ≤ 0x1000) :
    writeBytes base bs s = .ok { s with mem := copyBytes base bs s.mem } := by
  induction bs generalizing base s with
  | nil => rfl
  | cons b bs ih =>
    simp only [List.length_cons] at hhi
    simp only [writeBytes, memWrite_ok b s hlo (by omega)]
    rw [ih (base + 1) _ (by omega) (by omega)]
    rfl

/-- A bulk write changes memory only, and only by putting bytes, wherever it succeeds. -/
theorem writeBytes_eq {base : Nat} {bs : List Byte} {s t : State} (h : writeBytes base bs s = .ok t) :
    t = { s with mem := copyBytes base bs s.mem } ∧
      (bs = [] ∨ (0x50 ≤ base ∧ base + bs.length ≤ 0x1000)) := by
  induction bs generalizing base s with
  | nil => simp only [writeBytes, Except.ok.injEq] at h; subst h; exact ⟨rfl, .inl rfl⟩
  | cons b bs ih =>
    simp only [writeBytes, memWrite] at h
    split at h
    · cases h
    · next f u hu =>
      split at hu
      · cases hu
      · split at hu
        · cases hu
        · cases hu
          obtain ⟨h1, h2⟩ := ih h
          refine ⟨by rw [h1]; rfl, .inr ?_⟩
          simp only [List.length_cons]
          rcases h2 with rfl | h2
          · simp; omega
          · omega

/-- The fetch, in full (R107). -/
theorem fetch_eq (s : State) :
    fetch s = if s.pc.toNat ≤ 0xFFE then
        .ok (wordOfBytes (s.mem.byteAt s.pc.toNat) (s.mem.byteAt (s.pc.toNat + 1)))
      else .error ⟨.memRange, max s.pc.toNat 0x1000⟩ := by
  unfold fetch
  by_cases h : s.pc.toNat ≤ 0xFFE
  · rw [checkRead_ok (by omega), if_pos h, memRead_ok s (by omega), memRead_ok s (by omega)]
  · rw [checkRead_range (by omega), if_neg h]

theorem wordOfBytes_toNat (hi lo : Byte) : (wordOfBytes hi lo).toNat = hi.toNat * 256 + lo.toNat := by
  rw [wordOfBytes, BitVec.toNat_append, Nat.shiftLeft_eq,
    ← Nat.shiftLeft_eq, ← Nat.shiftLeft_add_eq_or_of_lt lo.isLt, Nat.shiftLeft_eq]

/-! ## Stack -/

theorem pushStack_ok (w : Word) (s : State) (h : s.sp.val < 16) :
    pushStack w s = .ok { s with stack := s.stack.set s.sp.val w h, sp := ⟨s.sp.val + 1, by omega⟩ } := by
  simp [pushStack, h]

theorem pushStack_full (w : Word) (s : State) (h : s.sp.val = 16) :
    pushStack w s = .error ⟨.stackOverflow, 16⟩ := by simp [pushStack, h]

theorem popStack_ok (s : State) (h : 0 < s.sp.val) :
    popStack s = .ok (s.stack[s.sp.val - 1]'(by omega), { s with sp := ⟨s.sp.val - 1, by omega⟩ }) := by
  simp [popStack, h]

theorem popStack_empty (s : State) (h : s.sp.val = 0) : popStack s = .error ⟨.stackUnderflow, 0⟩ := by
  simp [popStack, h]

/-! ## Ends of handlers and cycles -/

/-- A handler that can fault answers a next state, one of two. -/
theorem finish_cases (w : Word) (s : State) (r : Except Raised State) :
    (∃ t, r = .ok t ∧ finish w s r = .next t) ∨
      (∃ f, r = .error f ∧ finish w s r = .next (raiseFault f (some w) s)) := by
  cases r with
  | ok t => exact .inl ⟨t, rfl, rfl⟩
  | error f => exact .inr ⟨f, rfl, rfl⟩

@[simp] theorem mapNext_next (f : State → State) (t : State) : mapNext f (.next t) = .next (f t) := rfl

theorem mapNext_eq_next {f : State → State} {r : Result} {t : State} (h : mapNext f r = .next t) :
    ∃ u, r = .next u ∧ t = f u := by
  cases r <;> simp [mapNext] at h ⊢
  exact h.symm

/-- What one host turn can do: nothing but ClearDirty when halted, the stop, or a refreshed instruction or wait. -/
theorem cycle_cases (s : State) :
    (s.run = false ∧ cycle s = .next s) ∨
    (s.run = true ∧ (turn s).stopIn = true ∧ cycle s = .next (stopRun s)) ∨
    (s.run = true ∧ (turn s).stopIn = false ∧ cycle s = mapNext closeCycle (runOrWait (refreshKeys s))) := by
  unfold cycle
  cases s.run <;> cases (turn s).stopIn <;> simp

theorem turn_of_inputs {s t : State} (h : t.inputs = s.inputs) (h' : t.cycleNo = s.cycleNo) : turn t = turn s := by
  simp [turn, h, h']

@[simp] theorem turn_hostClear (s : State) : turn (hostClear s) = turn s := rfl
@[simp] theorem turn_refreshKeys (s : State) : turn (refreshKeys s) = turn s := rfl

@[simp] theorem turnAfter_zero (s : State) : turnAfter 0 s = turn s := by
  cases h : s.inputs <;> simp [turnAfter, turn, h]

/-- When the present turn is over, the turn after `k` more is the one that stood `k + 1` turns ahead. -/
theorem turnAfter_endTurn (k : Nat) (s : State) : turnAfter k (endTurn s) = turnAfter (k + 1) s := by
  cases h : s.inputs <;> simp [turnAfter, endTurn, h, Nat.add_assoc, Nat.add_comm 1 k]

@[simp] theorem turnAfter_hostClear (k : Nat) (s : State) : turnAfter k (hostClear s) = turnAfter k s := rfl

/-- The lowest key of a set is in it and every lower one is not; there is none only in the empty set. -/
theorem lowestKey_some {ks : KeySet} {k : Nat} (h : lowestKey ks = some k) :
    k < 16 ∧ ks.getLsbD k = true ∧ ∀ j, j < k → ks.getLsbD j = false := by
  rw [lowestKey, List.find?_range_eq_some] at h
  obtain ⟨h1, h2, h3⟩ := h
  exact ⟨by simpa using h2, h1, fun j hj => by simpa using h3 j hj⟩

theorem lowestKey_none {ks : KeySet} (h : lowestKey ks = none) : ∀ k, k < 16 → ks.getLsbD k = false := by
  intro k hk
  rw [lowestKey, List.find?_eq_none] at h
  simpa using h k (by simpa using hk)

/-! ## Frame buffer -/

theorem pixel_flipPixel (fb : FrameBuffer) (px qx : Fin 64) (py qy : Fin 32) :
    pixel (flipPixel fb px py) qx qy = (pixel fb qx qy ^^ decide (qx = px ∧ qy = py)) := by
  have h1 := px.isLt
  have h2 := qx.isLt
  unfold pixel flipPixel
  simp only [Vector.getElem_set]
  by_cases hy : qy = py
  · subst hy
    simp only [if_true, BitVec.getLsbD_xor, BitVec.getLsbD_twoPow, and_true]
    congr 1
    by_cases hx : qx = px
    · subst hx; simp; omega
    · have : (63 - px.val) ≠ (63 - qx.val) := fun hc => hx (by ext; omega)
      simp [hx, this]
  · have : py.val ≠ qy.val := fun hc => hy (by ext; omega)
    simp [this, hy]

end Sys2Proof.Machine
end

