-- ==== Sys2Proof/Laws/Draw.lean ====
section
/-!
SUPPORT. What drawing one sprite row, and then a sprite, does to a pixel and to the collision bit. The columns of a
row and the rows of a sprite are distinct (spec/44_draw.md R187), so no pixel is touched twice.
-/
namespace Sys2Proof.Machine

theorem spriteCol_inj {x0 : Byte} {c d : Nat} (hc : c < 8) (hd : d < 8) (h : spriteCol x0 c = spriteCol x0 d) :
    c = d := by
  simp only [spriteCol, Fin.mk.injEq] at h
  omega

theorem spriteRow_inj {y0 : Byte} {r q : Nat} (hr : r < 32) (hq : q < 32) (h : spriteRow y0 r = spriteRow y0 q) :
    r = q := by
  simp only [spriteRow, Fin.mk.injEq] at h
  omega

/-- Column `c` of row byte `b` is set and falls on column `px`. -/
abbrev bitOn (x0 b : Byte) (px : Fin 64) (c : Nat) : Bool := b.getLsbD (7 - c) && decide (px = spriteCol x0 c)

theorem pixel_drawCols (x0 : Byte) (py qy : Fin 32) (b : Byte) (px : Fin 64) (cs : List Nat) (cv : Canvas)
    (hn : cs.Nodup) (h8 : ∀ c ∈ cs, c < 8) :
    pixel (drawCols x0 py b cs cv).1 px qy =
      (pixel cv.1 px qy ^^ (decide (qy = py) && cs.any (bitOn x0 b px))) := by
  induction cs generalizing cv with
  | nil => simp [drawCols]
  | cons c cs ih =>
    obtain ⟨hc, hn⟩ := List.nodup_cons.1 hn
    rw [drawCols, ih _ hn fun d hd => h8 d (List.mem_cons_of_mem c hd)]
    have once : bitOn x0 b px c = true → cs.any (bitOn x0 b px) = false := by
      intro h
      simp only [Bool.and_eq_true, decide_eq_true_eq] at h
      rw [List.any_eq_false]
      intro d hd hbad
      simp only [Bool.and_eq_true, decide_eq_true_eq] at hbad
      have := spriteCol_inj (h8 c (by simp)) (h8 d (by simp [hd])) (h.2.symm.trans hbad.2)
      exact hc (this ▸ hd)
    by_cases hb : b.getLsbD (7 - c) = true
    · simp only [hb, if_true, drawPixel, pixel_flipPixel, List.any_cons]
      by_cases hp : px = spriteCol x0 c
      · have : bitOn x0 b px c = true := by simp only [Bool.and_eq_true, decide_eq_true_eq]; exact ⟨hb, hp⟩
        rw [once this, this]
        simp [hp]
      · have : bitOn x0 b px c = false := by simp [hp]
        simp [this, hp]
    · have : bitOn x0 b px c = false := by simp [hb]
      simp [hb, this]

theorem hit_drawCols (x0 : Byte) (py : Fin 32) (b : Byte) (cs : List Nat) (cv : Canvas)
    (hn : cs.Nodup) (h8 : ∀ c ∈ cs, c < 8) :
    (drawCols x0 py b cs cv).2 =
      (cv.2 || cs.any fun c => b.getLsbD (7 - c) && pixel cv.1 (spriteCol x0 c) py) := by
  induction cs generalizing cv with
  | nil => simp [drawCols]
  | cons c cs ih =>
    obtain ⟨hc, hn⟩ := List.nodup_cons.1 hn
    rw [drawCols, ih _ hn fun d hd => h8 d (List.mem_cons_of_mem c hd)]
    by_cases hb : b.getLsbD (7 - c) = true
    · simp only [hb, if_true, drawPixel, List.any_cons, Bool.true_and, Bool.or_assoc]
      congr 2
      rw [Bool.eq_iff_iff, List.any_eq_true, List.any_eq_true]
      refine exists_congr fun d => and_congr_right fun hd => ?_
      have hne : spriteCol x0 d ≠ spriteCol x0 c := fun h =>
        hc (spriteCol_inj (h8 d (by simp [hd])) (h8 c (by simp)) h ▸ hd)
      simp [pixel_flipPixel, hne]
    · simp [hb]

/-- The eight columns of a sprite row. -/
abbrev cols8 : List Nat := [0, 1, 2, 3, 4, 5, 6, 7]

theorem mem_cols8 {c : Nat} : c ∈ cols8 ↔ c < 8 := by simp; omega

open Classical in
/-- A pixel after the sprite's rows: turned over exactly where a set sprite bit falls. -/
theorem pixel_drawRows (x0 y0 : Byte) (px : Fin 64) (qy : Fin 32) (bs : List Byte) (r : Nat) (cv : Canvas)
    (hr : r + bs.length ≤ 32) :
    pixel (drawRows x0 y0 r bs cv).1 px qy = (pixel cv.1 px qy ^^
      decide (∃ k c, ∃ h : k < bs.length, c < 8 ∧ bs[k].getLsbD (7 - c) = true ∧
        px = spriteCol x0 c ∧ qy = spriteRow y0 (r + k))) := by
  induction bs generalizing r cv with
  | nil => simp [drawRows]
  | cons b bs ih =>
    simp only [List.length_cons] at hr
    rw [drawRows, ih (r + 1) _ (by omega), pixel_drawCols _ _ _ _ _ _ _ (by decide) fun c hc => mem_cols8.1 hc,
      Bool.xor_assoc]
    congr 1
    by_cases hq : qy = spriteRow y0 r
    · subst hq
      have hno : ¬ ∃ k c, ∃ h : k < bs.length, c < 8 ∧ bs[k].getLsbD (7 - c) = true ∧
          px = spriteCol x0 c ∧ spriteRow y0 r = spriteRow y0 (r + 1 + k) := by
        rintro ⟨k, c, h, -, -, -, h2⟩
        have := spriteRow_inj (by omega) (by omega) h2
        omega
      rw [decide_eq_false hno]
      simp only [decide_true, Bool.true_and, Bool.xor_false]
      rw [Bool.eq_iff_iff, List.any_eq_true, decide_eq_true_eq]
      constructor
      · rintro ⟨c, hc, h⟩
        simp only [Bool.and_eq_true, decide_eq_true_eq] at h
        exact ⟨0, c, by simp, mem_cols8.1 hc, by simpa using h.1, h.2, by simp⟩
      · rintro ⟨k, c, h, hc, hb, hp, h2⟩
        have : k = 0 := by
          simp only [List.length_cons] at h
          have := spriteRow_inj (by omega) (by omega) h2
          omega
        subst this
        refine ⟨c, mem_cols8.2 hc, ?_⟩
        simp only [Bool.and_eq_true, decide_eq_true_eq]
        exact ⟨by simpa using hb, hp⟩
    · simp only [hq, decide_false, Bool.false_and, Bool.false_xor]
      rw [Bool.eq_iff_iff, decide_eq_true_eq, decide_eq_true_eq]
      constructor
      · rintro ⟨k, c, h, hc, hb, hp, h2⟩
        exact ⟨k + 1, c, by simpa using h, hc, by simpa using hb, hp, by rw [h2, Nat.add_assoc, Nat.add_comm 1 k]⟩
      · rintro ⟨k, c, h, hc, hb, hp, h2⟩
        cases k with
        | zero => exact absurd (by simpa using h2) hq
        | succ k => exact ⟨k, c, by simpa using h, hc, by simpa using hb, hp, by rw [h2, Nat.add_assoc, Nat.add_comm 1 k]⟩

open Classical in
/-- The collision bit after the sprite's rows: some set sprite bit fell on a pixel that was on before the draw. -/
theorem hit_drawRows (x0 y0 : Byte) (bs : List Byte) (r : Nat) (cv : Canvas) (hr : r + bs.length ≤ 32) :
    (drawRows x0 y0 r bs cv).2 = (cv.2 ||
      decide (∃ k c, ∃ h : k < bs.length, c < 8 ∧ bs[k].getLsbD (7 - c) = true ∧
        pixel cv.1 (spriteCol x0 c) (spriteRow y0 (r + k)) = true)) := by
  induction bs generalizing r cv with
  | nil => simp [drawRows]
  | cons b bs ih =>
    simp only [List.length_cons] at hr
    rw [drawRows, ih (r + 1) _ (by omega), hit_drawCols _ _ _ _ _ (by decide) fun c hc => mem_cols8.1 hc,
      Bool.or_assoc]
    congr 1
    have hpix : ∀ k c, k < bs.length → pixel (drawCols x0 (spriteRow y0 r) b cols8 cv).1 (spriteCol x0 c)
        (spriteRow y0 (r + 1 + k)) = pixel cv.1 (spriteCol x0 c) (spriteRow y0 (r + 1 + k)) := by
      intro k c hk
      rw [pixel_drawCols _ _ _ _ _ _ _ (by decide) fun c hc => mem_cols8.1 hc]
      have : spriteRow y0 (r + 1 + k) ≠ spriteRow y0 r := fun h => by
        have := spriteRow_inj (by omega) (by omega) h
        omega
      simp [this]
    rw [Bool.eq_iff_iff, Bool.or_eq_true, List.any_eq_true, decide_eq_true_eq, decide_eq_true_eq]
    constructor
    · rintro (⟨c, hc, h⟩ | ⟨k, c, h, hc, hb, hp⟩)
      · simp only [Bool.and_eq_true] at h
        exact ⟨0, c, by simp, mem_cols8.1 hc, by simpa using h.1, by simpa using h.2⟩
      · rw [hpix k c h] at hp
        exact ⟨k + 1, c, by simpa using h, hc, by simpa using hb, by rw [← hp]; congr 2; omega⟩
    · rintro ⟨k, c, h, hc, hb, hp⟩
      cases k with
      | zero =>
        refine .inl ⟨c, mem_cols8.2 hc, ?_⟩
        simp only [Bool.and_eq_true]
        exact ⟨by simpa using hb, by simpa using hp⟩
      | succ k =>
        simp only [List.length_cons] at h
        refine .inr ⟨k, c, by omega, hc, by simpa using hb, ?_⟩
        rw [hpix k c (by omega), ← hp]
        congr 2
        omega

end Sys2Proof.Machine
end

