-- ==== Sys2Proof/Laws/Encode.lean ====
section
/-!
SUPPORT. The fields of spec/30_encoding.md R71 as numbers, and what they are in each word form the encoder builds.
-/
namespace Sys2Proof

theorem append_toNat {n m : Nat} (x : BitVec n) (y : BitVec m) :
    (x ++ y).toNat = x.toNat * 2 ^ m + y.toNat := by
  rw [BitVec.toNat_append, ← Nat.shiftLeft_add_eq_or_of_lt y.isLt, Nat.shiftLeft_eq]

theorem word4_toNat (a b c d : Nibble) :
    (word4 a b c d).toNat = a.toNat * 4096 + b.toNat * 256 + c.toNat * 16 + d.toNat := by
  simp only [word4, append_toNat]; omega

theorem wordXnn_toNat (op x : Nibble) (nn : Byte) :
    (wordXnn op x nn).toNat = op.toNat * 4096 + x.toNat * 256 + nn.toNat := by
  simp only [wordXnn, append_toNat]; omega

theorem wordNnn_toNat (op : Nibble) (nnn : Addr12) : (wordNnn op nnn).toNat = op.toNat * 4096 + nnn.toNat := by
  simp only [wordNnn, append_toNat]; omega

theorem wordF0_toNat (ign : Byte) (n : Nibble) : (wordF0 ign n).toNat = ign.toNat * 16 + n.toNat := by
  simp only [wordF0, append_toNat]
  have : (0 : Nibble).toNat = 0 := rfl
  omega

theorem bitField_eq (w : Word) (lo width : Nat) : bitField w lo width = w.toNat / 2 ^ lo % 2 ^ width := by
  rw [bitField, Nat.shiftRight_eq_div_pow]

theorem opField_toNat (w : Word) : (opField w).toNat = w.toNat / 4096 % 16 := by
  simp [opField, Nat.shiftRight_eq_div_pow]
theorem xField_toNat (w : Word) : (xField w).toNat = w.toNat / 256 % 16 := by
  simp [xField, Nat.shiftRight_eq_div_pow]
theorem yField_toNat (w : Word) : (yField w).toNat = w.toNat / 16 % 16 := by
  simp [yField, Nat.shiftRight_eq_div_pow]
theorem nField_toNat (w : Word) : (nField w).toNat = w.toNat % 16 := by simp [nField]
theorem nnField_toNat (w : Word) : (nnField w).toNat = w.toNat % 256 := by simp [nnField]
theorem nnnField_toNat (w : Word) : (nnnField w).toNat = w.toNat % 4096 := by simp [nnnField]
theorem ignF0Field_toNat (w : Word) : (ignF0Field w).toNat = w.toNat / 16 % 256 := by
  simp [ignF0Field, Nat.shiftRight_eq_div_pow]
theorem highByte_toNat (w : Word) : (highByte w).toNat = w.toNat / 256 := by
  have := w.isLt
  simp [highByte, Nat.shiftRight_eq_div_pow]; omega
theorem lowByte_toNat (w : Word) : (lowByte w).toNat = w.toNat % 256 := by simp [lowByte]

/-! ## word4 -/

@[simp] theorem opField_word4 (a b c d : Nibble) : opField (word4 a b c d) = a :=
  BitVec.eq_of_toNat_eq (by rw [opField_toNat, word4_toNat]; omega)
@[simp] theorem xField_word4 (a b c d : Nibble) : xField (word4 a b c d) = b :=
  BitVec.eq_of_toNat_eq (by rw [xField_toNat, word4_toNat]; omega)
@[simp] theorem yField_word4 (a b c d : Nibble) : yField (word4 a b c d) = c :=
  BitVec.eq_of_toNat_eq (by rw [yField_toNat, word4_toNat]; omega)
@[simp] theorem nField_word4 (a b c d : Nibble) : nField (word4 a b c d) = d :=
  BitVec.eq_of_toNat_eq (by rw [nField_toNat, word4_toNat]; omega)

/-! ## wordXnn -/

@[simp] theorem opField_wordXnn (op x : Nibble) (nn : Byte) : opField (wordXnn op x nn) = op :=
  BitVec.eq_of_toNat_eq (by rw [opField_toNat, wordXnn_toNat]; omega)
@[simp] theorem xField_wordXnn (op x : Nibble) (nn : Byte) : xField (wordXnn op x nn) = x :=
  BitVec.eq_of_toNat_eq (by rw [xField_toNat, wordXnn_toNat]; omega)
@[simp] theorem nnField_wordXnn (op x : Nibble) (nn : Byte) : nnField (wordXnn op x nn) = nn :=
  BitVec.eq_of_toNat_eq (by rw [nnField_toNat, wordXnn_toNat]; omega)

/-! ## wordNnn -/

@[simp] theorem opField_wordNnn (op : Nibble) (nnn : Addr12) : opField (wordNnn op nnn) = op :=
  BitVec.eq_of_toNat_eq (by rw [opField_toNat, wordNnn_toNat]; omega)
@[simp] theorem nnnField_wordNnn (op : Nibble) (nnn : Addr12) : nnnField (wordNnn op nnn) = nnn :=
  BitVec.eq_of_toNat_eq (by rw [nnnField_toNat, wordNnn_toNat]; omega)

/-! ## wordF0 -/

@[simp] theorem opField_wordF0 (ign : Byte) (n : Nibble) : opField (wordF0 ign n) = 0 :=
  BitVec.eq_of_toNat_eq (by rw [opField_toNat, wordF0_toNat]; simp; omega)
@[simp] theorem ignF0Field_wordF0 (ign : Byte) (n : Nibble) : ignF0Field (wordF0 ign n) = ign :=
  BitVec.eq_of_toNat_eq (by rw [ignF0Field_toNat, wordF0_toNat]; omega)
@[simp] theorem nField_wordF0 (ign : Byte) (n : Nibble) : nField (wordF0 ign n) = n :=
  BitVec.eq_of_toNat_eq (by rw [nField_toNat, wordF0_toNat]; omega)

/-! ## Legality of a word, by its fields -/

theorem legalWord_fields (w : Word) :
    legalWord w = if (opField w).toNat = 0x0 then [0x0, 0xE].contains (nField w).toNat
      else if (opField w).toNat = 0x8 then [0, 1, 2, 3, 4, 5, 6, 7, 0xE].contains (nField w).toNat
      else if (opField w).toNat = 0xE then [0x9E, 0xA1].contains (nnField w).toNat
      else if (opField w).toNat = 0xF then
        [0x07, 0x0A, 0x15, 0x18, 0x1E, 0x29, 0x33, 0x55, 0x65].contains (nnField w).toNat
      else true := by
  have h1 : bitField w 12 4 = (opField w).toNat := by rw [bitField_eq, opField_toNat]; norm_num
  have h2 : bitField w 0 4 = (nField w).toNat := by rw [bitField_eq, nField_toNat]; simp
  have h3 : bitField w 0 8 = (nnField w).toNat := by rw [bitField_eq, nnField_toNat]; simp
  simp only [legalWord, legalFamily0, legalFamily8, legalFamilyE, legalFamilyF, h1, h2, h3]

end Sys2Proof
end

