-- ==== Sys2Proof/Laws/PerInstr.lean ====
section
/-!
SUPPORT. One law for every instruction: the word that the encoder gives it is legal in the sense of
spec/30_encoding.md R80, which is written apart from the encoder and the decoder.
-/
namespace Sys2Proof.Laws.LegalEncoding

/-- The instruction's word is no decode error. -/
def Statement (i : Instr) : Prop := legalWord (encode i) = true

theorem cls (ign : Byte) : Statement (.cls ign) := by
  simp [Statement, legalWord_fields, encode]
theorem ret (ign : Byte) : Statement (.ret ign) := by
  simp [Statement, legalWord_fields, encode]
theorem jp (nnn : Addr12) : Statement (.jp nnn) := by
  simp [Statement, legalWord_fields, encode]
theorem call (nnn : Addr12) : Statement (.call nnn) := by
  simp [Statement, legalWord_fields, encode]
theorem seImm (x : Nibble) (nn : Byte) : Statement (.seImm x nn) := by
  simp [Statement, legalWord_fields, encode]
theorem sneImm (x : Nibble) (nn : Byte) : Statement (.sneImm x nn) := by
  simp [Statement, legalWord_fields, encode]
theorem seReg (x y : Nibble) (ign : Nibble) : Statement (.seReg x y ign) := by
  simp [Statement, legalWord_fields, encode]
theorem ldImm (x : Nibble) (nn : Byte) : Statement (.ldImm x nn) := by
  simp [Statement, legalWord_fields, encode]
theorem addImm (x : Nibble) (nn : Byte) : Statement (.addImm x nn) := by
  simp [Statement, legalWord_fields, encode]
theorem ldReg (x y : Nibble) : Statement (.ldReg x y) := by
  simp [Statement, legalWord_fields, encode]
theorem orReg (x y : Nibble) : Statement (.orReg x y) := by
  simp [Statement, legalWord_fields, encode]
theorem andReg (x y : Nibble) : Statement (.andReg x y) := by
  simp [Statement, legalWord_fields, encode]
theorem xorReg (x y : Nibble) : Statement (.xorReg x y) := by
  simp [Statement, legalWord_fields, encode]
theorem addReg (x y : Nibble) : Statement (.addReg x y) := by
  simp [Statement, legalWord_fields, encode]
theorem sub (x y : Nibble) : Statement (.sub x y) := by
  simp [Statement, legalWord_fields, encode]
theorem shr (x y : Nibble) : Statement (.shr x y) := by
  simp [Statement, legalWord_fields, encode]
theorem subn (x y : Nibble) : Statement (.subn x y) := by
  simp [Statement, legalWord_fields, encode]
theorem shl (x y : Nibble) : Statement (.shl x y) := by
  simp [Statement, legalWord_fields, encode]
theorem sneReg (x y : Nibble) (ign : Nibble) : Statement (.sneReg x y ign) := by
  simp [Statement, legalWord_fields, encode]
theorem ldI (nnn : Addr12) : Statement (.ldI nnn) := by
  simp [Statement, legalWord_fields, encode]
theorem jpV0 (nnn : Addr12) : Statement (.jpV0 nnn) := by
  simp [Statement, legalWord_fields, encode]
theorem rnd (x : Nibble) (nn : Byte) : Statement (.rnd x nn) := by
  simp [Statement, legalWord_fields, encode]
theorem drw (x y n : Nibble) : Statement (.drw x y n) := by
  simp [Statement, legalWord_fields, encode]
theorem skp (x : Nibble) : Statement (.skp x) := by
  simp [Statement, legalWord_fields, encode]
theorem sknp (x : Nibble) : Statement (.sknp x) := by
  simp [Statement, legalWord_fields, encode]
theorem ldVxDt (x : Nibble) : Statement (.ldVxDt x) := by
  simp [Statement, legalWord_fields, encode]
theorem ldVxK (x : Nibble) : Statement (.ldVxK x) := by
  simp [Statement, legalWord_fields, encode]
theorem ldDtVx (x : Nibble) : Statement (.ldDtVx x) := by
  simp [Statement, legalWord_fields, encode]
theorem ldStVx (x : Nibble) : Statement (.ldStVx x) := by
  simp [Statement, legalWord_fields, encode]
theorem addI (x : Nibble) : Statement (.addI x) := by
  simp [Statement, legalWord_fields, encode]
theorem ldF (x : Nibble) : Statement (.ldF x) := by
  simp [Statement, legalWord_fields, encode]
theorem ldB (x : Nibble) : Statement (.ldB x) := by
  simp [Statement, legalWord_fields, encode]
theorem ldMemVx (x : Nibble) : Statement (.ldMemVx x) := by
  simp [Statement, legalWord_fields, encode]
theorem ldVxMem (x : Nibble) : Statement (.ldVxMem x) := by
  simp [Statement, legalWord_fields, encode]

end Sys2Proof.Laws.LegalEncoding
end

