-- ==== Sys2Proof/Tests/Slice0.lean ====
section
/-!
SUPPORT. The model's own tests: ill-formed words and instructions are refused, the encodings written out from
spec/opcode_table.json decode to their instructions, one step of each instruction gives what
spec/95_test_vectors.md says (the vector's number stands beside each test), and the witnesses that meet the
hypotheses of each statement in Certificates/Slice0/Obligations.lean.
-/
namespace Sys2Proof.Machine.Tests

/-! ## Helpers -/

/-- A turn with these keys, no stop and this draw. -/
def inTurn (keys : KeySet) (rand : Byte) : HostTurn :=
  { clearDirty := false, keysIn := keys, stopIn := false, randIn := rand }

/-- Reset with the host's next turn listed: no key, no stop. -/
def start : State := { State.reset with inputs := [inTurn 0 0] }

/-- One step with the word placed at pc. -/
def run1 (w : Nat) (s : State) : Result := step (s.withFetchWord 16 w)

/-- The next state of a result. -/
def after : Result → State
  | .next t => t
  | .fault _ => State.reset
  | .refused _ => State.reset

/-- The state with the bytes stored from `a` up. -/
def store (a : Nat) (bs : List Byte) (s : State) : State := { s with mem := copyBytes a bs s.mem }

/-- What a test looks at: a part of the next state, none if there is no next state. -/
def see {α : Type} (f : State → α) : Result → Option α
  | .next t => some (f t)
  | .fault _ => none
  | .refused _ => none

/-- The error record as a tuple. -/
def errOf (s : State) : ErrKind × Word × Option Word × Nat := (s.err.kind, s.err.pc, s.err.word, s.err.info)

/-- All pixels off but those listed. -/
def frameWith (ps : List (Fin 64 × Fin 32)) : FrameBuffer := ps.foldl (fun fb p => flipPixel fb p.1 p.2) blankFrame

/-! ## Well-formedness -/

theorem test_ill_formed_family0 : legalWord 0x0123 = false ∧ legalWord 0x00E1 = false := by decide
theorem test_ill_formed_family8 : legalWord 0x8008 = false ∧ legalWord 0x800F = false := by decide
theorem test_ill_formed_familyE : legalWord 0xE19F = false ∧ legalWord 0xE1A0 = false := by decide
theorem test_ill_formed_familyF : legalWord 0xF130 = false ∧ legalWord 0xF000 = false := by decide
theorem test_legal_others : legalWord 0x5121 = true ∧ legalWord 0xD000 = true ∧ legalWord 0x0ABE = true := by decide
theorem test_ill_formed_cls : (Instr.cls 0x0E).wellFormed = false := by decide
theorem test_ill_formed_ret : (Instr.ret 0xAB).wellFormed = false := by decide
theorem test_ill_formed_seReg : (Instr.seReg 1 2 1).wellFormed = false := by decide
theorem test_ill_formed_sneReg : (Instr.sneReg 1 2 0xF).wellFormed = false := by decide
theorem test_ill_formed_shr : (Instr.shr 0 1).wellFormed = false := by decide
theorem test_ill_formed_shl : (Instr.shl 0 1).wellFormed = false := by decide
theorem test_well_formed : (Instr.cls 0).wellFormed = true ∧ (Instr.drw 0 1 5).wellFormed = true := by decide

/-! ## Decoding, word by word from spec/opcode_table.json -/

theorem test_decode_cls : decode 0b0000_0000_1110_0000 = .ok (.cls 0x0E) := by decide
theorem test_decode_ret : decode 0b0000_0000_1110_1110 = .ok (.ret 0x0E) := by decide
theorem test_decode_jp : decode 0b0001_1010_1011_1100 = .ok (.jp 0xABC) := by decide
theorem test_decode_call : decode 0b0010_1010_1011_1100 = .ok (.call 0xABC) := by decide
theorem test_decode_seImm : decode 0b0011_0011_0100_0010 = .ok (.seImm 3 0x42) := by decide
theorem test_decode_sneImm : decode 0b0100_0011_0100_0010 = .ok (.sneImm 3 0x42) := by decide
theorem test_decode_seReg : decode 0b0101_0001_0010_0001 = .ok (.seReg 1 2 1) := by decide
theorem test_decode_ldImm : decode 0b0110_1010_0111_1111 = .ok (.ldImm 0xA 0x7F) := by decide
theorem test_decode_addImm : decode 0b0111_0010_0000_0001 = .ok (.addImm 2 1) := by decide
theorem test_decode_ldReg : decode 0b1000_0001_0010_0000 = .ok (.ldReg 1 2) := by decide
theorem test_decode_orReg : decode 0b1000_0001_0010_0001 = .ok (.orReg 1 2) := by decide
theorem test_decode_andReg : decode 0b1000_0001_0010_0010 = .ok (.andReg 1 2) := by decide
theorem test_decode_xorReg : decode 0b1000_0001_0010_0011 = .ok (.xorReg 1 2) := by decide
theorem test_decode_addReg : decode 0b1000_0001_0010_0100 = .ok (.addReg 1 2) := by decide
theorem test_decode_sub : decode 0b1000_0001_0010_0101 = .ok (.sub 1 2) := by decide
theorem test_decode_shr : decode 0b1000_0001_0010_0110 = .ok (.shr 1 2) := by decide
theorem test_decode_subn : decode 0b1000_0001_0010_0111 = .ok (.subn 1 2) := by decide
theorem test_decode_shl : decode 0b1000_0001_0010_1110 = .ok (.shl 1 2) := by decide
theorem test_decode_sneReg : decode 0b1001_0001_0010_1111 = .ok (.sneReg 1 2 0xF) := by decide
theorem test_decode_ldI : decode 0b1010_0010_0011_0100 = .ok (.ldI 0x234) := by decide
theorem test_decode_jpV0 : decode 0b1011_0011_0000_0000 = .ok (.jpV0 0x300) := by decide
theorem test_decode_rnd : decode 0b1100_0011_0000_1111 = .ok (.rnd 3 0x0F) := by decide
theorem test_decode_drw : decode 0b1101_0001_0010_0101 = .ok (.drw 1 2 5) := by decide
theorem test_decode_skp : decode 0b1110_0101_1001_1110 = .ok (.skp 5) := by decide
theorem test_decode_sknp : decode 0b1110_0101_1010_0001 = .ok (.sknp 5) := by decide
theorem test_decode_ldVxDt : decode 0b1111_0011_0000_0111 = .ok (.ldVxDt 3) := by decide
theorem test_decode_ldVxK : decode 0b1111_0010_0000_1010 = .ok (.ldVxK 2) := by decide
theorem test_decode_ldDtVx : decode 0b1111_0010_0001_0101 = .ok (.ldDtVx 2) := by decide
theorem test_decode_ldStVx : decode 0b1111_0010_0001_1000 = .ok (.ldStVx 2) := by decide
theorem test_decode_addI : decode 0b1111_0001_0001_1110 = .ok (.addI 1) := by decide
theorem test_decode_ldF : decode 0b1111_1010_0010_1001 = .ok (.ldF 0xA) := by decide
theorem test_decode_ldB : decode 0b1111_0000_0011_0011 = .ok (.ldB 0) := by decide
theorem test_decode_ldMemVx : decode 0b1111_0011_0101_0101 = .ok (.ldMemVx 3) := by decide
theorem test_decode_ldVxMem : decode 0b1111_0011_0110_0101 = .ok (.ldVxMem 3) := by decide

/-- Words of L2.1 that are decode errors. -/
theorem test_decode_errors :
    decode 0x0123 = .error (.family0 3) ∧ decode 0x800F = .error (.family8 0xF) ∧
    decode 0xE1A0 = .error (.familyE 0xA0) ∧ decode 0xF11F = .error (.familyF 0x1F) := by decide

/-- The host's bit numbering: the table's word for CLS, and one that is no instruction. -/
theorem test_decodeTableWord :
    decodeTableWord 16 0xA234 = some (.ldI 0x234) ∧ decodeTableWord 16 0xF130 = none := by decide

/-- A truncated instruction is refused by name. -/
theorem test_decodeBytes_truncated : decodeBytes [0xA2] = .error .truncated := by decide

/-! ## One step of each instruction -/

/-- L1.7. -/
theorem test_cls : see (fun t => (t.fb, t.dirty, t.pc))
    (run1 0x0000 { start with fb := frameWith [(0, 0), (63, 31)] }) = some (blankFrame, true, 0x202) := by decide
/-- L2.2: SP = 2, stack[1] = 0x350. -/
theorem test_ret : see (fun t => (t.sp.val, t.pc, t.stack[1]))
    (run1 0x00EE { start with sp := 2, stack := start.stack.set 1 0x350 }) = some (1, 0x352, 0x350) := by decide
/-- L2.2: SP = 0. -/
theorem test_ret_underflow :
    see errOf (run1 0x00EE start) = some (.stackUnderflow, 0x200, some 0x00EE, 0) := by decide
/-- L2.2. -/
theorem test_jp : see (fun t => t.pc) (run1 0x1ABC start) = some 0xABC := by decide
/-- L2.2: from pc = 0xFFE, the call recurses. -/
theorem test_call : see (fun t => (t.stack[0], t.sp.val, t.pc)) (run1 0x2FFE { start with pc := 0xFFE }) =
    some (0xFFE, 1, 0xFFE) := by decide
/-- L2.2: SP = 16. -/
theorem test_call_overflow : see (fun t => (errOf t, t.sp.val)) (run1 0x2ABC { start with pc := 0x400, sp := 16 }) =
    some ((.stackOverflow, 0x400, some 0x2ABC, 16), 16) := by decide
/-- L2.2: at pc = 0xFFC, V0 = 0. -/
theorem test_seImm : see (fun t => t.pc) (run1 0x3000 { start with pc := 0xFFC }) = some 0x1000 := by decide
/-- L2.2: V3 = 0x41. -/
theorem test_seImm_not : see (fun t => t.pc) (run1 0x3342 (setV 3 0x41 start)) = some 0x202 := by decide
/-- L2.2: V3 = 0x41. -/
theorem test_sneImm : see (fun t => t.pc) (run1 0x4342 (setV 3 0x41 start)) = some 0x204 := by decide
/-- L2.2: V3 = 0x42. -/
theorem test_sneImm_not : see (fun t => t.pc) (run1 0x4342 (setV 3 0x42 start)) = some 0x202 := by decide
/-- L2.2: V1 = V2 = 7. -/
theorem test_seReg : see (fun t => t.pc) (run1 0x5120 (setV 1 7 (setV 2 7 start))) = some 0x204 := by decide
/-- L2.2: V1 = 7, V2 = 8. -/
theorem test_sneReg : see (fun t => t.pc) (run1 0x9120 (setV 1 7 (setV 2 8 start))) = some 0x204 := by decide
/-- L2.2: V1 = V2 = 7. -/
theorem test_sneReg_not : see (fun t => t.pc) (run1 0x9120 (setV 1 7 (setV 2 7 start))) = some 0x202 := by decide
/-- L2.3. -/
theorem test_ldImm : see (fun t => (getV 0xA t, t.pc)) (run1 0x6A7F start) = some (0x7F, 0x202) := by decide
/-- L2.3: V2 = 0xFF, VF = 0x5A. -/
theorem test_addImm : see (fun t => (getV 2 t, getV 15 t)) (run1 0x7201 (setV 2 0xFF (setV 15 0x5A start))) =
    some (0x00, 0x5A) := by decide
/-- L2.3: VF = 0x01. -/
theorem test_addImm_vf : see (getV 15) (run1 0x7FFF (setV 15 1 start)) = some 0x00 := by decide
/-- L2.3: V1 = 0x33, VF = 9. -/
theorem test_ldReg : see (fun t => (getV 0 t, getV 15 t)) (run1 0x8010 (setV 1 0x33 (setV 15 9 start))) =
    some (0x33, 9) := by decide
/-- L2.3: V0 = 0xF0, V1 = 0x0F, VF = 9. -/
theorem test_orReg : see (fun t => (getV 0 t, getV 15 t))
    (run1 0x8011 (setV 0 0xF0 (setV 1 0x0F (setV 15 9 start)))) = some (0xFF, 0) := by decide
/-- L2.3: VF = 0xAA, V1 = 0x55. -/
theorem test_orReg_vf : see (getV 15) (run1 0x8F11 (setV 15 0xAA (setV 1 0x55 start))) = some 0 := by decide
/-- L2.3: V0 = 0xF0, V1 = 0x3C. -/
theorem test_andReg : see (fun t => (getV 0 t, getV 15 t)) (run1 0x8012 (setV 0 0xF0 (setV 1 0x3C start))) =
    some (0x30, 0) := by decide
/-- L2.3: V0 = 0xFF, V1 = 0x0F. -/
theorem test_xorReg : see (fun t => (getV 0 t, getV 15 t)) (run1 0x8013 (setV 0 0xFF (setV 1 0x0F start))) =
    some (0xF0, 0) := by decide
/-- L1.2: V0 = 0xFF, V1 = 0x01. -/
theorem test_addReg : see (fun t => (getV 0 t, getV 15 t)) (run1 0x8014 (setV 0 0xFF (setV 1 1 start))) =
    some (0x00, 1) := by decide
/-- L2.3: VF = 0xFF, V1 = 0x01: the carry wins. -/
theorem test_addReg_vf : see (getV 15) (run1 0x8F14 (setV 15 0xFF (setV 1 1 start))) = some 1 := by decide
/-- L1.3: V0 = 0x01, V1 = 0x02. -/
theorem test_sub : see (fun t => (getV 0 t, getV 15 t)) (run1 0x8015 (setV 0 1 (setV 1 2 start))) =
    some (0xFF, 0) := by decide
/-- L2.3: V0 = V1 = 5. -/
theorem test_sub_equal : see (fun t => (getV 0 t, getV 15 t)) (run1 0x8015 (setV 0 5 (setV 1 5 start))) =
    some (0x00, 1) := by decide
/-- L2.3: V0 = 0x01, V1 = 0xAA, which is ignored. -/
theorem test_shr : see (fun t => (getV 0 t, getV 15 t)) (run1 0x8016 (setV 0 1 (setV 1 0xAA start))) =
    some (0x00, 1) := by decide
/-- L2.3: VF = 0x03. -/
theorem test_shr_vf : see (getV 15) (run1 0x8F06 (setV 15 3 start)) = some 1 := by decide
/-- L2.3: V0 = 0x02, V1 = 0x05. -/
theorem test_subn : see (fun t => (getV 0 t, getV 15 t)) (run1 0x8017 (setV 0 2 (setV 1 5 start))) =
    some (0x03, 1) := by decide
/-- L2.3: V0 = 0x02, V1 = 0x01. -/
theorem test_subn_borrow : see (fun t => (getV 0 t, getV 15 t)) (run1 0x8017 (setV 0 2 (setV 1 1 start))) =
    some (0xFF, 0) := by decide
/-- L2.3: V0 = 0x81. -/
theorem test_shl : see (fun t => (getV 0 t, getV 15 t)) (run1 0x800E (setV 0 0x81 start)) = some (0x02, 1) := by
  decide
/-- L2.3: VF = 0x40. -/
theorem test_shl_vf : see (getV 15) (run1 0x8F0E (setV 15 0x40 start)) = some 0 := by decide
/-- L2.4: I = 0x1234. -/
theorem test_ldI : see (fun t => t.i) (run1 0xA000 { start with i := 0x1234 }) = some 0 := by decide
/-- L2.4: V0 = 0xFF. -/
theorem test_jpV0 : see (fun t => t.pc) (run1 0xBFFF (setV 0 0xFF start)) = some 0x10FE := by decide
/-- L2.4: V0 = 0x01, V5 = 0x77. -/
theorem test_jpV0_reads_V0 : see (fun t => t.pc) (run1 0xB5FE (setV 0 1 (setV 5 0x77 start))) = some 0x5FF := by
  decide
/-- L2.4: rand_in = 0xAB. -/
theorem test_rnd : see (getV 3) (run1 0xC30F { start with inputs := [inTurn 0 0xAB] }) = some 0x0B := by decide
/-- L2.5: right-edge wrap. -/
theorem test_drw_wraps : see (fun t => (t.fb, getV 15 t))
    (run1 0xD011 { setV 0 60 (store 0x300 [0xFF] start) with i := 0x300 }) =
    some (frameWith [(60, 0), (61, 0), (62, 0), (63, 0), (0, 0), (1, 0), (2, 0), (3, 0)], 0) := by decide
/-- L2.5: VF = 10, the old VF is the column, and the pixel is turned off. -/
theorem test_drw_collides : see (fun t => (t.fb, getV 15 t, t.dirty))
    (run1 0xDF11 { setV 15 10 (store 0x300 [0x80] start) with i := 0x300, fb := frameWith [(10, 0)] }) =
    some (blankFrame, 1, true) := by decide
/-- L2.6: V5 = 3, key 3. -/
theorem test_skp : see (fun t => t.pc) (run1 0xE59E { setV 5 3 start with inputs := [inTurn 0x0008 0] }) =
    some 0x204 := by decide
/-- L2.6: V5 = 0x10. -/
theorem test_skp_range : see errOf (run1 0xE59E (setV 5 0x10 start)) =
    some (.operandRange, 0x200, some 0xE59E, 0x10) := by decide
/-- L2.6: V5 = 3, no key. -/
theorem test_sknp : see (fun t => t.pc) (run1 0xE5A1 (setV 5 3 start)) = some 0x204 := by decide
/-- L2.6: V5 = 3, key 3. -/
theorem test_sknp_not : see (fun t => t.pc) (run1 0xE5A1 { setV 5 3 start with inputs := [inTurn 0x0008 0] }) =
    some 0x202 := by decide
/-- L2.6: DT = 9. -/
theorem test_ldVxDt : see (fun t => (getV 3 t, t.dt)) (run1 0xF307 { start with dt := 9 }) = some (9, 8) := by
  decide
/-- P5, cycle 4: key 7 held at the entry. -/
theorem test_ldVxK : see (fun t => (t.mode, t.pc, t.keys)) (run1 0xF20A { start with inputs := [inTurn 0x0080 0] }) =
    some (.awaitKey 2 0x0080, 0x200, 0x0080) := by decide
/-- L2.6: V2 = 0x3C, ticked in the same cycle. -/
theorem test_ldDtVx : see (fun t => t.dt) (run1 0xF215 (setV 2 0x3C start)) = some 0x3B := by decide
/-- L2.6: V2 = 1. -/
theorem test_ldStVx : see (fun t => (t.st, t.soundOn)) (run1 0xF218 (setV 2 1 start)) = some (0, true) := by decide
/-- L2.6: I = 0xFFFF, V1 = 2. -/
theorem test_addI_wraps : see (fun t => (t.i, getV 15 t)) (run1 0xF11E { setV 1 2 start with i := 0xFFFF }) =
    some (1, 1) := by decide
/-- L2.6: I = 0xFFE, V1 = 1. -/
theorem test_addI : see (fun t => (t.i, getV 15 t)) (run1 0xF11E { setV 1 1 start with i := 0xFFE }) =
    some (0xFFF, 0) := by decide
/-- L2.6: VA = 0xF. -/
theorem test_ldF : see (fun t => t.i) (run1 0xFA29 (setV 10 0xF start)) = some 0x04B := by decide
/-- L2.6: VA = 0x10. -/
theorem test_ldF_range : see errOf (run1 0xFA29 (setV 10 0x10 start)) =
    some (.operandRange, 0x200, some 0xFA29, 0x10) := by decide
/-- L1.4: V0 = 234. -/
theorem test_ldB : see (fun t => (t.mem.byteAt 0x300, t.mem.byteAt 0x301, t.mem.byteAt 0x302, t.i))
    (run1 0xF033 { setV 0 234 start with i := 0x300 }) = some (2, 3, 4, 0x300) := by decide
/-- L2.6: I = 0x04E. -/
theorem test_ldB_protect : see errOf (run1 0xF033 { start with i := 0x04E }) =
    some (.memProtect, 0x200, some 0xF033, 0x04E) := by decide
/-- L1.5. -/
theorem test_ldMemVx : see (fun t => (t.mem.byteAt 0x300, t.mem.byteAt 0x303, t.mem.byteAt 0x304, t.i))
    (run1 0xF355 { setV 0 0x11 (setV 3 0x44 (setV 4 0x55 start)) with i := 0x300 }) =
    some (0x11, 0x44, 0, 0x304) := by decide
/-- L2.6: I = 0xFF1. -/
theorem test_ldMemVx_range : see (fun t => (errOf t, t.i)) (run1 0xFF55 { start with i := 0xFF1 }) =
    some ((.memRange, 0x200, some 0xFF55, 0x1000), 0xFF1) := by decide
/-- L2.6: I = 0x300, mem[0x30F] = 0x77. -/
theorem test_ldVxMem : see (fun t => (getV 15 t, t.i)) (run1 0xFF65 { store 0x30F [0x77] start with i := 0x300 }) =
    some (0x77, 0x310) := by decide
/-- L2.6: I = 0x1000. -/
theorem test_ldVxMem_range : see errOf (run1 0xF065 { start with i := 0x1000 }) =
    some (.memRange, 0x200, some 0xF065, 0x1000) := by decide

/-! ## The cycle (L2.1, L2.4, L2.7, L2.8) -/

/-- L2.1 and L2.7: a decode error, ST = 3: no tick. -/
theorem test_decode_error_halts : see (fun t => (errOf t, t.run, t.st)) (run1 0x0123 { start with st := 3 }) =
    some ((.decode, 0x200, some 0x0123, 0), false, 3) := by decide
/-- L2.4: the fetch at 0xFFF faults with info 0x1000. -/
theorem test_fetch_fault : see errOf (step { start with pc := 0xFFF }) = some (.memRange, 0xFFF, none, 0x1000) := by
  decide
/-- L2.7: a stop, DT = ST = 2, key 4. -/
theorem test_stop : see (fun t => (t.run, t.err.kind, t.dt, t.st, t.keys))
    (step { start with dt := 2, st := 2, inputs := [{ inTurn 0x0010 0 with stopIn := true }] }) =
    some (false, .noError, 2, 2, 0) := by decide
/-- L2.7: AWAIT_KEY(3, none), keys 9 and 2. -/
theorem test_wait_resumes : see (fun t => (getV 3 t, t.pc, t.mode))
    (step { start with mode := .awaitKey 3 0, inputs := [inTurn 0x0204 0] }) = some (2, 0x202, .ready) := by decide
/-- L2.7: AWAIT_KEY(3, 9), key 9 held. -/
theorem test_wait_held : see (fun t => t.mode)
    (step { start with mode := .awaitKey 3 0x0200, inputs := [inTurn 0x0200 0] }) = some (.awaitKey 3 0x0200) := by
  decide
/-- L2.7: ClearDirty, then a cycle that draws nothing. -/
theorem test_clear_dirty : see (fun t => t.dirty)
    (run1 0x6000 { start with dirty := true, inputs := [{ inTurn 0 0 with clearDirty := true }] }) = some false := by
  decide
/-- L2.8: a read failure. -/
theorem test_read_failure : errOf (construct Config.defaultFont .readFailure) = (.romLoad, 0x200, none, 0) := by
  decide
/-- 20_memory.md R64 and R65: the glyph of digit 8 stands at 0x028. -/
theorem test_font_glyph : State.reset.mem.byteAt 0x028 = 0xF0 ∧ State.reset.mem.byteAt 0x02B = 0x90 := by decide

/-! ## Witnesses: the hypotheses of each statement can be met -/

theorem witness_EncodeOfDecodeIsTheWord : decode 0x0ABE = .ok (.ret 0xAB) := by decide

/-- One word of each clause of the list, one that is no error, and a fetch of an error. -/
theorem witness_DecodeErrorsAreTheListedWords :
    (0x0123 / 4096 = 0x0 ∧ 0x0123 % 16 ∉ [0x0, 0xE]) ∧ (0x800F / 4096 = 0x8 ∧ 7 < 0x800F % 16 ∧ 0x800F % 16 ≠ 0xE) ∧
    (0xE19F / 4096 = 0xE ∧ 0xE19F % 256 ∉ [0x9E, 0xA1]) ∧
    (0xF130 / 4096 = 0xF ∧ 0xF130 % 256 ∉ [0x07, 0x0A, 0x15, 0x18, 0x1E, 0x29, 0x33, 0x55, 0x65]) ∧ decode 0x0000 = .ok (.cls 0) ∧
    fetch (start.withFetchWord 16 0x0123) = .ok 0x0123 ∧ decode 0x0123 = .error (.family0 3) := by decide

theorem witness_FetchIsBigEndianOrFaults :
    (0xFFE : Word).toNat ≤ 0xFFE ∧ 0xFFE < (0xFFF : Word).toNat ∧ 0xFFE < (0xFFFF : Word).toNat := by decide

theorem witness_StepRunsTheDecodedInstruction :
    let s := { start with pc := 0xFFE }.withFetchWord 16 0x6A7F
    s.run = true ∧ s.mode = .ready ∧ (turn s).stopIn = false ∧ s.pc.toNat ≤ 0xFFE ∧
      decode (wordOfBytes (s.mem.byteAt s.pc.toNat) (s.mem.byteAt (s.pc.toNat + 1))) = .ok (.ldImm 0xA 0x7F) := by
  decide

theorem witness_PlacedWordIsFetched : State.reset.mem.wf = true := by decide

theorem witness_HaltedMachineStaysAsItIs : (after (run1 0x0123 start)).run = false := by decide

/-- A turn that keeps dirty, one that clears it in AWAITING, and one whose Cycle executes CLS. -/
theorem witness_DirtyFallsByClearDirtyOnly :
    let c : State := { start with dirty := true, inputs := [{ inTurn 0 0 with clearDirty := true }] }
    let w : State := { c with mode := .awaitKey 3 0 }
    (∃ t, step { start with dirty := true } = .next t ∧ t.dirty = true) ∧
    (∃ t, step w = .next t ∧ t.dirty = false) ∧
    (∃ t, step c = .next t ∧ t.dirty ≠ (c.dirty && !(turn c).clearDirty)) :=
  ⟨⟨after (step { start with dirty := true }), rfl, by decide⟩,
    ⟨after (step { start with
      dirty := true, inputs := [{ inTurn 0 0 with clearDirty := true }], mode := .awaitKey 3 0 }), rfl, by decide⟩,
    ⟨after (step { start with dirty := true, inputs := [{ inTurn 0 0 with clearDirty := true }] }), rfl, by decide⟩⟩

/-- READY and AWAITING. -/
theorem witness_StopInputHaltsBeforeAnythingElse :
    let h : List HostTurn := [{ inTurn 0x0010 0 with stopIn := true }]
    let s := { start with inputs := h }
    let u := { start with inputs := h, mode := .awaitKey 3 0 }
    (s.run = true ∧ (turn s).stopIn = true) ∧ (u.run = true ∧ (turn u).stopIn = true) := by decide

/-- A cycle that ends running, and one that ends halted. -/
theorem witness_TimerPhaseEndsRunningCyclesOnly :
    let s := { start with st := 1 }.withFetchWord 16 0x6000
    let u := { start with st := 3 }.withFetchWord 16 0x0123
    (s.run = true ∧ ∃ t, cycle s = .next t ∧ t.run = true) ∧
    (u.run = true ∧ ∃ t, cycle u = .next t ∧ t.run = false) :=
  ⟨⟨by decide, after (cycle ({ start with st := 1 }.withFetchWord 16 0x6000)), rfl, by decide⟩,
    ⟨by decide, after (cycle ({ start with st := 3 }.withFetchWord 16 0x0123)), rfl, by decide⟩⟩

/-- No rising key; the lowest key 0; the highest key 15, alone. -/
theorem witness_WaitResumesOnTheLowestRisingKey :
    let s (k : KeySet) : State := { start with mode := .awaitKey 3 0x0200, inputs := [inTurn k 0] }
    ((s 0).run = true ∧ (s 0).mode = .awaitKey 3 0x0200 ∧ (turn (s 0)).stopIn = false) ∧
    (∀ k, k < 16 → ¬ Rising (turn (s 0x0200)).keysIn 0x0200 k) ∧
    Rising (turn (s 0x0205)).keysIn 0x0200 0 ∧
    (Rising (turn (s 0x8200)).keysIn 0x0200 15 ∧ ∀ j, j < 15 → ¬ Rising (turn (s 0x8200)).keysIn 0x0200 j) := by
  unfold Rising; decide

/-- Halted; stopped; READY to HALTED, to AWAITING and to READY. -/
theorem witness_HandlerStatesMoveAsTheTableSays :
    (handlerState { start with run := false } = .halted ∧
      ∃ t, cycle { start with run := false } = .next t) ∧
    (handlerState start ≠ .halted ∧ (turn { start with inputs := [{ inTurn 0 0 with stopIn := true }] }).stopIn = true) ∧
    (handlerState (start.withFetchWord 16 0x0123) = .ready ∧ (turn (start.withFetchWord 16 0x0123)).stopIn = false ∧
      see (fun u => u.run) (executeOne (refreshKeys (start.withFetchWord 16 0x0123))) = some false) ∧
    (see (fun u => u.run) (executeOne (refreshKeys (start.withFetchWord 16 0xF20A))) = some true ∧
      fetch (start.withFetchWord 16 0xF20A) = .ok 0xF20A ∧ decode 0xF20A = .ok (.ldVxK 2)) ∧
    (see (fun u => u.run) (executeOne (refreshKeys (start.withFetchWord 16 0x6000))) = some true ∧
      fetch (start.withFetchWord 16 0x6000) = .ok 0x6000 ∧ decode 0x6000 = .ok (.ldImm 0 0)) :=
  ⟨⟨by decide, { start with run := false }, rfl⟩, by decide, by decide, by decide, by decide⟩

/-- AWAITING, with a rising key and without. -/
theorem witness_HandlerStates_awaiting :
    let s (k : KeySet) : State := { start with mode := .awaitKey 3 0, inputs := [inTurn k 0] }
    handlerState (s 1) = .awaiting ∧ (s 1).mode = .awaitKey 3 0 ∧ (turn (s 1)).stopIn = false ∧
    (Rising (turn (s 1)).keysIn 0 0) ∧ (∀ k, k < 16 → ¬ Rising (turn (s 0)).keysIn 0 k) := by
  unfold Rising; decide

theorem witness_KeypadIsRefreshedInRunningCycles : ∃ t, cycle (start.withFetchWord 16 0x6000) = .next t :=
  ⟨after (cycle (start.withFetchWord 16 0x6000)), rfl⟩

/-- A turn that executes LD V0, 0 and one that is stopped. -/
theorem witness_RandomInputReachesRndOnly :
    (start.withFetchWord 16 0x6000).inputs = [inTurn 0 0] ∧
    (¬ ((start.withFetchWord 16 0x6000).run = true ∧ (start.withFetchWord 16 0x6000).mode = .ready ∧
      (inTurn 0 0).stopIn = false ∧
      ∃ w x nn, fetch (start.withFetchWord 16 0x6000) = .ok w ∧ decode w = .ok (.rnd x nn))) := by
  refine ⟨by decide, ?_⟩
  rintro ⟨-, -, -, w, x, nn, h, hd⟩
  rw [show fetch (start.withFetchWord 16 0x6000) = .ok 0x6000 by decide] at h
  cases h
  rw [show decode 0x6000 = .ok (.ldImm 0 0) by decide] at hd
  cases hd

theorem witness_TimerWriteIsTickedInItsOwnCycle :
    let s (w : Nat) : State := start.withFetchWord 16 w
    ((s 0xF215).run = true ∧ (s 0xF215).mode = .ready ∧ (turn (s 0xF215)).stopIn = false ∧
      fetch (s 0xF215) = .ok 0xF215 ∧ decode 0xF215 = .ok (.ldDtVx 2)) ∧
    (fetch (s 0xF218) = .ok 0xF218 ∧ decode 0xF218 = .ok (.ldStVx 2)) ∧
    (fetch (s 0xF207) = .ok 0xF207 ∧ decode 0xF207 = .ok (.ldVxDt 2)) := by decide

/-- The addresses where the clauses meet. -/
theorem witness_CheckedAccessReadsAndWrites :
    State.reset.mem.wf = true ∧ 0xFFF < 0x1000 ∧ 0x04F ≤ 0x04F ∧ 0x050 ≤ 0x050 ∧ 0xFFF ≤ 0xFFF ∧
    memRead 0x1000 start = .error ⟨.memRange, 0x1000⟩ ∧ memWrite 0x04F 1 start = .error ⟨.memProtect, 0x04F⟩ ∧
    memRead 0x04F start = .ok 0x80 ∧
    see (fun t => t.mem.byteAt 0x050) (finish 0 start (memWrite 0x050 7 start)) = some 7 ∧
    see (fun t => t.mem.byteAt 0xFFF) (finish 0 start (memWrite 0xFFF 7 start)) = some 7 := by decide

/-- The stored byte as the high and as the low byte of the fetched word. -/
theorem witness_StoredByteIsFetched :
    let t : State := { start with mem := start.mem.put 0xFFE 0xA2 }
    let u : State := { t with pc := 0xFFE }
    let w : State := { t with pc := 0xFFD }
    start.mem.wf = true ∧ memWrite 0xFFE 0xA2 start = .ok t ∧ (u.mem = t.mem ∧ u.pc.toNat = 0xFFE ∧ 0xFFE ≤ 0xFFE) ∧
    (w.mem = t.mem ∧ w.pc.toNat + 1 = 0xFFE) := by decide

theorem witness_FontRegionNeverChanges : (∃ t, step start = .next t) ∧ 0x04F ≤ 0x04F :=
  ⟨⟨after (step start), rfl⟩, le_rfl⟩

theorem witness_OnlyStoresChangeMemory :
    let s := { setV 0 1 start with i := 0x050 }.withFetchWord 16 0xF055
    ∃ t, step s = .next t ∧ t.mem ≠ s.mem :=
  ⟨after (step ({ setV 0 1 start with i := 0x050 }.withFetchWord 16 0xF055)), rfl, by decide⟩

/-- A state with a byte listed, from which a store goes on. -/
theorem witness_StepKeepsMemoryCanonical :
    let s := { setV 0 1 start with i := 0xFFF }.withFetchWord 16 0xF055
    s.mem.wf = true ∧ ∃ t, step s = .next t :=
  ⟨by decide, after (step ({ setV 0 1 start with i := 0xFFF }.withFetchWord 16 0xF055)), rfl⟩

/-- A running machine, and one halted by a fault. -/
theorem witness_StepKeepsRunAndErrorAgreeing :
    let s := after (run1 0x0123 start)
    (RunErrAgree start ∧ ∃ t, step start = .next t) ∧
    (RunErrAgree s ∧ s.err.kind ≠ .noError ∧ ∃ t, step s = .next t) :=
  ⟨⟨by unfold RunErrAgree; decide, after (step start), rfl⟩,
    by unfold RunErrAgree; decide, by decide, after (step (after (run1 0x0123 start))), rfl⟩

/-- pc at its bound, a full stack. -/
theorem witness_StepKeepsPcBounded :
    let s := { start with pc := 0x10FE, sp := 16, stack := Vector.replicate 16 0xFFE }
    PcBounded s ∧ ∃ t, step s = .next t := by
  refine ⟨⟨by decide, by decide, ?_⟩,
    after (step { start with pc := 0x10FE, sp := 16, stack := Vector.replicate 16 0xFFE }), rfl⟩
  intro ax prev h
  cases h

theorem witness_FaultsArePrecise :
    let s := { start with sp := 16 }
    s.run = true ∧ exec (.call 0xABC) s = .next (after (exec (.call 0xABC) s)) ∧
      (after (exec (.call 0xABC) s)).run = false := ⟨by decide, rfl, by decide⟩

theorem witness_OnlyListedInstructionsFault :
    (mayFault (.addI 1) = false ∧ ∃ t, exec (.addI 1) start = .next t) ∧
    (mayFault (.drw 0 1 1) = true ∧ ∀ x y, Instr.drw 0 1 1 ≠ .drw x y 0) := by
  refine ⟨⟨by decide, after (exec (.addI 1) start), rfl⟩, by decide, ?_⟩
  intro x y h
  cases h

/-- The longest ROM, with a byte at its last place, and the shortest. -/
theorem witness_ConstructBuildsTheListedState :
    (List.replicate 3584 (0x5A : Byte)).length ≤ 3584 ∧ 3583 < (List.replicate 3584 (0x5A : Byte)).length ∧
    ([] : List Byte).length ≤ 3584 ∧ 0x200 + ([] : List Byte).length ≤ 0xFFF ∧ 0x050 ≤ 0x1FF ∧ 0x1FF < 0x200 := by
  rw [List.length_replicate]; decide

theorem witness_FailedLoadHaltsBeforeAnyCopy : 3584 < (List.replicate 3585 (0x5A : Byte)).length := by
  rw [List.length_replicate]; decide

/-- Each element of the matrix that an instruction may change does change under one. -/
theorem witness_InstructionsWriteOnlyWhatTheMatrixAllows :
    (∃ t, exec (.ldI 0xFFF) start = .next t ∧ t.i ≠ start.i) ∧
    (∃ t, exec (.call 0xABC) start = .next t ∧ t.stack ≠ start.stack ∧ t.sp ≠ start.sp) ∧
    (∃ t, exec (.ldDtVx 1) (setV 1 9 start) = .next t ∧ t.dt ≠ (setV 1 9 start).dt) ∧
    (∃ t, exec (.ldStVx 1) (setV 1 9 start) = .next t ∧ t.st ≠ (setV 1 9 start).st) ∧
    (∃ t, exec (.drw 0 0 1) start = .next t ∧ t.fb ≠ start.fb ∧ t.dirty ≠ start.dirty) ∧
    (∃ t, exec (.ldVxK 1) start = .next t ∧ t.mode ≠ start.mode) ∧
    (∃ t, exec (.ldB 1) (setV 1 9 { start with i := 0x050 }) = .next t ∧
      t.mem ≠ (setV 1 9 { start with i := 0x050 }).mem) :=
  ⟨⟨after (exec (.ldI 0xFFF) start), rfl, by decide⟩,
    ⟨after (exec (.call 0xABC) start), rfl, by decide, by decide⟩,
    ⟨after (exec (.ldDtVx 1) (setV 1 9 start)), rfl, by decide⟩,
    ⟨after (exec (.ldStVx 1) (setV 1 9 start)), rfl, by decide⟩,
    ⟨after (exec (.drw 0 0 1) start), rfl, by decide, by decide⟩,
    ⟨after (exec (.ldVxK 1) start), rfl, by decide⟩,
    ⟨after (exec (.ldB 1) (setV 1 9 { start with i := 0x050 })), rfl, by decide⟩⟩

theorem witness_OnlyListedInstructionsChangeVF :
    ∃ t, exec (.ldImm 15 7) start = .next t ∧ getV 15 t ≠ getV 15 start :=
  ⟨after (exec (.ldImm 15 7) start), rfl, by decide⟩

theorem witness_OnlyClsAndDrwChangePixels :
    let s := { start with fb := frameWith [(3, 4)] }
    ∃ t, step s = .next t ∧ t.fb ≠ s.fb := ⟨after (step { start with fb := frameWith [(3, 4)] }), rfl, by decide⟩

/-- The two clauses on SP. -/
theorem witness_IgnoredBitsChangeNoEffect : 0 < { start with sp := 1 }.sp.val ∧ start.sp.val = 0 := by decide

/-- SP at 1, at 16 and at 0. -/
theorem witness_RetReturnsPastTheTopEntry :
    (0 < 16 ∧ { start with sp := 1 }.sp.val = 0 + 1) ∧ (15 < 16 ∧ { start with sp := 16 }.sp.val = 15 + 1) ∧
    start.sp.val = 0 := by decide

/-- SP at 15 and at 16. -/
theorem witness_CallPushesItsOwnAddress :
    { start with sp := 15 }.sp.val < 16 ∧ { start with sp := 16 }.sp.val = 16 := by decide

theorem witness_RetUndoesCall :
    let s := { start with sp := 15 }
    let t := after (exec (.call 0x300) s)
    s.sp.val < 16 ∧ { t with pc := 0x0CC0, i := 7 }.stack = t.stack ∧ { t with pc := 0x0CC0, i := 7 }.sp = t.sp := by
  decide

/-- n = 0 with I at its top, and a sprite whose last byte is the last of memory. -/
theorem witness_DrawXorsTheSpriteAndDetectsCollision :
    ((0 : Nibble).toNat = 0) ∧ { start with i := 0xFF1 }.i.toNat + (15 : Nibble).toNat - 1 ≤ 0xFFF ∧
    SpriteSets 0 1 1 start 0 0 ∧ pixel { start with fb := frameWith [(0, 0)] }.fb 0 0 = true := by
  refine ⟨by decide, by decide, ⟨0, 0, by decide⟩, by decide⟩

/-- No collision: no sprite byte at all. -/
theorem witness_DrawXors_no_collision :
    ¬ ∃ px py, SpriteSets 0 1 0 start px py ∧ pixel start.fb px py = true := by
  rintro ⟨px, py, ⟨r, c, hr, -⟩, -⟩
  exact absurd hr (Nat.not_lt_zero r)

/-- A sprite that runs out of memory. -/
theorem witness_DrawXors_out_of_memory :
    (0 < (2 : Nibble).toNat ∧ 0xFFF < { start with i := 0xFFF }.i.toNat + (2 : Nibble).toNat - 1) ∧
    (0 < (1 : Nibble).toNat ∧ 0xFFF < { start with i := 0xFFFF }.i.toNat + (1 : Nibble).toNat - 1) := by decide

theorem witness_RowWordDrawEqualsPixelDraw : (List.replicate 15 (0xC3 : Byte)).length ≤ 15 := by decide

theorem witness_KeySkipsReadTheSnapshot :
    (getV 5 (setV 5 0xF start)).toNat ≤ 0xF ∧ 0xF < (getV 5 (setV 5 0x10 start)).toNat := by decide

/-- Keys 7 and 9 held since the entry: key 7 is released and none counts; key 12 joins them and counts. -/
theorem witness_KeyWaitBeginsAndIgnoresHeldKeys :
    let t := after (exec (.ldVxK 2) { start with keys := 0x0280 })
    let u (k : KeySet) : State := { t with inputs := [inTurn k 0] }
    ((u 0x0200).run = true ∧ (u 0x0200).mode = .awaitKey 2 0x0280 ∧ (turn (u 0x0200)).stopIn = false ∧
      ∀ k, k < 16 → ¬ Rising (turn (u 0x0200)).keysIn 0x0280 k) ∧
    ((u 0x1280).run = true ∧ (u 0x1280).mode = .awaitKey 2 0x0280 ∧ (turn (u 0x1280)).stopIn = false ∧
      12 < 16 ∧ Rising (turn (u 0x1280)).keysIn 0x0280 12) := by
  unfold Rising; decide

theorem witness_GlyphAddressIsFiveTimesTheDigit :
    (getV 10 (setV 10 0xF start)).toNat ≤ 0xF ∧ 0xF < (getV 10 (setV 10 0x10 start)).toNat := by decide

/-- The lowest and the highest range, and each fault where it begins. -/
theorem witness_BcdStoresThreeDigits :
    start.mem.wf = true ∧ (0x050 ≤ memBase { start with i := 0x050 } ∧ memBase { start with i := 0x050 } + 2 ≤ 0xFFF) ∧
    (0x050 ≤ memBase { start with i := 0xFFD } ∧ memBase { start with i := 0xFFD } + 2 ≤ 0xFFF) ∧
    0xFFF < memBase { start with i := 0xFFE } + 2 ∧ memBase { start with i := 0x04F } ≤ 0x04F := by decide

/-- The lowest and the highest range, and each fault where it begins. -/
theorem witness_BulkStoreWritesV0ToVx :
    start.mem.wf = true ∧
    (0x050 ≤ memBase { start with i := 0x050 } ∧ memBase { start with i := 0x050 } + (0 : Nibble).toNat ≤ 0xFFF) ∧
    (0x050 ≤ memBase { start with i := 0xFF0 } ∧ memBase { start with i := 0xFF0 } + (15 : Nibble).toNat ≤ 0xFFF) ∧
    0xFFF < memBase { start with i := 0xFF1 } + (15 : Nibble).toNat ∧ memBase { start with i := 0x04F } ≤ 0x04F := by
  decide

/-- The lowest and the highest range, and the fault where it begins. -/
theorem witness_BulkLoadReadsV0ToVx :
    memBase { start with i := 0 } + (15 : Nibble).toNat ≤ 0xFFF ∧
    memBase { start with i := 0xFF0 } + (15 : Nibble).toNat ≤ 0xFFF ∧
    0xFFF < memBase { start with i := 0x1000 } + (0 : Nibble).toNat := by decide

end Sys2Proof.Machine.Tests
end

namespace Sys2Proof.Machine

/-! # What every instruction writes, and the invariants of a turn

The layer for the statements about spec/10_state.md: one relation, `Effect`, lists everything an instruction can do
to the state, and another, `CycleOutcome`, everything a Cycle can do; each statement is a case analysis over them. -/

/-! ## The parts of handlers that can fault -/

theorem checkRead_cases (lo hi : Nat) :
    (hi ≤ 0xFFF ∧ checkRead lo hi = .ok ()) ∨ ∃ f, f.kind ≠ .noError ∧ checkRead lo hi = .error f := by
  by_cases h : hi ≤ 0xFFF
  · exact .inl ⟨h, checkRead_ok h⟩
  · exact .inr ⟨_, by simp, checkRead_range (by omega)⟩

theorem checkWrite_cases (lo hi : Nat) :
    (hi ≤ 0xFFF ∧ 0x50 ≤ lo ∧ checkWrite lo hi = .ok ()) ∨
      ∃ f, f.kind ≠ .noError ∧ checkWrite lo hi = .error f := by
  by_cases hhi : hi ≤ 0xFFF
  · by_cases hlo : 0x50 ≤ lo
    · exact .inl ⟨hhi, hlo, checkWrite_ok hhi hlo⟩
    · exact .inr ⟨_, by simp, checkWrite_protect hhi (by omega)⟩
  · exact .inr ⟨_, by simp, checkWrite_range (by omega)⟩

theorem hexOperand_ok {x : Nibble} {s : State} (h : (getV x s).toNat ≤ 0xF) :
    hexOperand x s = .ok (getV x s).toNat := by
  simp [hexOperand]; omega

theorem hexOperand_range {x : Nibble} {s : State} (h : 0xF < (getV x s).toNat) :
    hexOperand x s = .error ⟨.operandRange, (getV x s).toNat⟩ := by
  simp only [hexOperand, h, if_true]

theorem hexOperand_cases (x : Nibble) (s : State) :
    ((getV x s).toNat ≤ 0xF ∧ hexOperand x s = .ok (getV x s).toNat) ∨
      ∃ f, f.kind ≠ .noError ∧ hexOperand x s = .error f := by
  by_cases h : (getV x s).toNat ≤ 0xF
  · exact .inl ⟨h, hexOperand_ok h⟩
  · exact .inr ⟨_, by simp, hexOperand_range (by omega)⟩

/-- The rows of a sprite (R181, R182): the bytes from I on, or MEM_RANGE; a sprite of height 0 is always read (R189). -/
theorem spriteBytes_cases (n : Nibble) (s : State) :
    ((n.toNat = 0 ∨ memBase s + n.toNat - 1 ≤ 0xFFF) ∧
      spriteBytes n s = .ok ((List.range' (memBase s) n.toNat).map s.mem.byteAt)) ∨
    ∃ f, f.kind ≠ .noError ∧ spriteBytes n s = .error f := by
  by_cases hn : n.toNat = 0
  · exact .inl ⟨.inl hn, by simp [spriteBytes, hn, readBytes]⟩
  · obtain ⟨hhi, hc⟩ | ⟨f, hf, hc⟩ := checkRead_cases (memBase s) (memBase s + n.toNat - 1)
    · refine .inl ⟨.inr hhi, ?_⟩
      simp only [spriteBytes, hn, if_false, hc]
      exact readBytes_ok _ _ _ (by omega)
    · exact .inr ⟨f, hf, by simp only [spriteBytes, hn, if_false, hc]⟩

/-! ## The effect of an instruction -/

/-- Everything an instruction can do to the state `s`: each constructor names the pieces it writes, the instructions
that write them, and what later statements need of the values (the access matrix of R38, with R22, R25, R231). -/
inductive Effect (s : State) : Instr → State → Prop
  /-- A fault: the record and `run`, nothing else (R231, R232). -/
  | fault {i : Instr} (f : Raised) (hmay : mayFault i = true) (hkind : f.kind ≠ .noError) :
      Effect s i (raiseFault f (some (encode i)) s)
  /-- Arithmetic, logic, loads of a register, RND: registers and `pc + 2`. -/
  | registers {i : Instr} (v : Vector Byte 16) (hVF : v[15] ≠ s.v[15] → writesVF i = true) :
      Effect s i (advancePc 2 { s with v := v })
  /-- Jumps and skips: `pc` only; from a place that can be fetched it stays within 0x10FE (R25, R171). -/
  | flow {i : Instr} (target : Word) (hpc : s.pc.toNat ≤ 0xFFE → target.toNat ≤ 0x10FE) : Effect s i (jumpTo target s)
  /-- CALL: its own pc is pushed (R133). -/
  | call (nnn : Addr12) (h : s.sp.val < 16) :
      Effect s (.call nnn) (jumpTo (addrOperand nnn)
        { s with stack := s.stack.set s.sp.val s.pc h, sp := ⟨s.sp.val + 1, by omega⟩ })
  /-- RET: the top entry is popped and passed by 2 (R131). -/
  | ret (ign : Byte) (h : 0 < s.sp.val) :
      Effect s (.ret ign) (advancePc 2 (jumpTo (s.stack[s.sp.val - 1]'(by omega))
        { s with sp := ⟨s.sp.val - 1, by omega⟩ }))
  /-- CLS and DXYN: the frame buffer, `dirty` and, in DXYN, VF (R130, R181). -/
  | screen {i : Instr} (fb : FrameBuffer) (v : Vector Byte 16) (hi : (∃ g, i = .cls g) ∨ ∃ x y n, i = .drw x y n)
      (hVF : v[15] ≠ s.v[15] → writesVF i = true) :
      Effect s i (advancePc 2 { s with v := v, fb := fb, dirty := true })
  /-- ANNN, FX1E, FX29, FX65: I, with VF or registers in two of them. -/
  | index {i : Instr} (w : Word) (v : Vector Byte 16)
      (hi : (∃ n, i = .ldI n) ∨ ∃ x, i = .addI x ∨ i = .ldF x ∨ i = .ldVxMem x)
      (hVF : v[15] ≠ s.v[15] → writesVF i = true) :
      Effect s i (advancePc 2 { s with i := w, v := v })
  /-- FX15. -/
  | delay (x : Nibble) : Effect s (.ldDtVx x) (advancePc 2 { s with dt := getV x s })
  /-- FX18. -/
  | sound (x : Nibble) : Effect s (.ldStVx x) (advancePc 2 { s with st := getV x s })
  /-- FX0A begins its wait where it stands (R203). -/
  | await (x : Nibble) : Effect s (.ldVxK x) { s with mode := .awaitKey x s.keys }
  /-- FX33: three bytes above the font region (R208). -/
  | bcd (x : Nibble) (hlo : 0x50 ≤ memBase s) (hhi : memBase s + 2 ≤ 0xFFF) :
      Effect s (.ldB x) (advancePc 2 { s with mem := copyBytes (memBase s) (bcdDigits (getV x s)) s.mem })
  /-- FX55: V0 to Vx above the font region, and I (R209). -/
  | store (x : Nibble) (hlo : 0x50 ≤ memBase s) (hhi : memBase s + x.toNat ≤ 0xFFF) :
      Effect s (.ldMemVx x)
        (advancePc 2 { s with mem := copyBytes (memBase s) (regsUpTo x s) s.mem, i := indexAfter x s })

theorem getElem_15_setV (x : Nibble) (b : Byte) (s : State) (h : (setV x b s).v[15] ≠ s.v[15]) : x = 15 := by
  by_contra hx
  exact h ((getV_setV x 15 b s).trans (if_neg (Ne.symm hx)))

theorem Effect.of_setV {i : Instr} {s : State} (x : Nibble) (b : Byte) (hw : x = 15 → writesVF i = true) :
    Effect s i (advancePc 2 (setV x b s)) :=
  .registers (setV x b s).v fun h => hw (getElem_15_setV x b s h)

theorem Effect.of_setResultFlag {i : Instr} {s : State} (x : Nibble) (r g : Byte) (hw : writesVF i = true) :
    Effect s i (setResultFlag x r g s) :=
  .registers (setVF g (setV x r s)).v fun _ => hw

theorem Effect.of_skipIf (i : Instr) (c : Bool) (s : State) : Effect s i (skipIf c s) := by
  rw [skipIf_eq]
  refine .flow _ fun h => ?_
  cases c <;> simp <;> omega

theorem addrOperand_toNat_lt (nnn : Addr12) : (addrOperand nnn).toNat < 0x1000 := by
  simp [addrOperand]; omega

theorem indexedTarget_toNat_le (nnn : Addr12) (s : State) : (indexedTarget nnn s).toNat ≤ 0x10FE := by
  have hn := nnn.isLt
  have hv := (getV 0 s).isLt
  simp [indexedTarget]; omega

/-- The end of a handler whose fault is named. -/
theorem finish_error_effect {i : Instr} {s : State} {f : Raised} (hmay : mayFault i = true)
    (hkind : f.kind ≠ .noError) : ∃ t, finish (encode i) s (.error f) = .next t ∧ Effect s i t :=
  ⟨_, rfl, .fault f hmay hkind⟩

theorem execRet_ok (ign : Byte) (s : State) (h : 0 < s.sp.val) :
    execRet ign s = .next (advancePc 2 (jumpTo (s.stack[s.sp.val - 1]'(by omega))
      { s with sp := ⟨s.sp.val - 1, by omega⟩ })) := by
  rw [execRet, popStack_ok s h]; rfl

theorem execCall_ok (nnn : Addr12) (s : State) (h : s.sp.val < 16) :
    execCall nnn s = .next (jumpTo (addrOperand nnn)
      { s with stack := s.stack.set s.sp.val s.pc h, sp := ⟨s.sp.val + 1, by omega⟩ }) := by
  rw [execCall, pushStack_ok s.pc s h]; rfl

theorem execRet_effect (ign : Byte) (s : State) : ∃ t, execRet ign s = .next t ∧ Effect s (.ret ign) t := by
  by_cases h : 0 < s.sp.val
  · exact ⟨_, execRet_ok ign s h, .ret ign h⟩
  · rw [execRet, popStack_empty s (by omega)]
    exact finish_error_effect rfl (by simp)

theorem execCall_effect (nnn : Addr12) (s : State) : ∃ t, execCall nnn s = .next t ∧ Effect s (.call nnn) t := by
  by_cases h : s.sp.val < 16
  · exact ⟨_, execCall_ok nnn s h, .call nnn h⟩
  · rw [execCall, pushStack_full s.pc s (by omega)]
    exact finish_error_effect rfl (by simp)

theorem execDrw_effect (x y n : Nibble) (s : State) : ∃ t, execDrw x y n s = .next t ∧ Effect s (.drw x y n) t := by
  obtain ⟨-, h⟩ | ⟨f, hf, h⟩ := spriteBytes_cases n s <;> rw [execDrw, h]
  · exact ⟨_, rfl, .screen _ (setVF _ s).v (.inr ⟨x, y, n, rfl⟩) fun _ => rfl⟩
  · exact finish_error_effect rfl hf

theorem execSkp_effect (x : Nibble) (s : State) : ∃ t, execSkp x s = .next t ∧ Effect s (.skp x) t := by
  obtain ⟨-, h⟩ | ⟨f, hf, h⟩ := hexOperand_cases x s <;> rw [execSkp, h]
  · exact ⟨_, rfl, .of_skipIf ..⟩
  · exact finish_error_effect rfl hf

theorem execSknp_effect (x : Nibble) (s : State) : ∃ t, execSknp x s = .next t ∧ Effect s (.sknp x) t := by
  obtain ⟨-, h⟩ | ⟨f, hf, h⟩ := hexOperand_cases x s <;> rw [execSknp, h]
  · exact ⟨_, rfl, .of_skipIf ..⟩
  · exact finish_error_effect rfl hf

theorem execLdF_effect (x : Nibble) (s : State) : ∃ t, execLdF x s = .next t ∧ Effect s (.ldF x) t := by
  obtain ⟨-, h⟩ | ⟨f, hf, h⟩ := hexOperand_cases x s <;> rw [execLdF, h]
  · exact ⟨_, rfl, .index _ s.v (.inr ⟨x, .inr (.inl rfl)⟩) fun h => absurd rfl h⟩
  · exact finish_error_effect rfl hf

theorem execLdB_effect (x : Nibble) (s : State) : ∃ t, execLdB x s = .next t ∧ Effect s (.ldB x) t := by
  obtain ⟨hhi, hlo, h⟩ | ⟨f, hf, h⟩ := checkWrite_cases (memBase s) (memBase s + 2) <;> rw [execLdB, h]
  · have hb : memBase s + (bcdDigits (getV x s)).length ≤ 0x1000 := by simp [bcdDigits]; omega
    exact ⟨_, by rw [writeBytes_ok _ _ s hlo hb]; rfl, .bcd x hlo hhi⟩
  · exact finish_error_effect rfl hf

theorem execLdMemVx_effect (x : Nibble) (s : State) :
    ∃ t, execLdMemVx x s = .next t ∧ Effect s (.ldMemVx x) t := by
  obtain ⟨hhi, hlo, h⟩ | ⟨f, hf, h⟩ := checkWrite_cases (memBase s) (memBase s + x.toNat) <;> rw [execLdMemVx, h]
  · have hb : memBase s + (regsUpTo x s).length ≤ 0x1000 := by rw [length_regsUpTo]; omega
    exact ⟨_, by rw [writeBytes_ok _ _ s hlo hb]; rfl, .store x hlo hhi⟩
  · exact finish_error_effect rfl hf

theorem getElem_15_loadRegs {bs : List Byte} {s : State} (h : bs.length ≤ 15) :
    (loadRegs 0 bs s).v[15] = s.v[15] := by
  refine (getV_loadRegs 0 bs s 15 (by omega)).trans (dif_neg ?_)
  simp; omega

theorem bulkLoad_eq (bs : List Byte) (w : Word) (s : State) :
    { loadRegs 0 bs s with i := w } = { s with v := (loadRegs 0 bs s).v, i := w } := by
  rw [loadRegs_eq]

theorem execLdVxMem_effect (x : Nibble) (s : State) :
    ∃ t, execLdVxMem x s = .next t ∧ Effect s (.ldVxMem x) t := by
  obtain ⟨hhi, h⟩ | ⟨f, hf, h⟩ := checkRead_cases (memBase s) (memBase s + x.toNat) <;> rw [execLdVxMem, h]
  · rw [readBytes_ok _ _ s (by omega)]
    refine ⟨_, rfl, ?_⟩
    rw [bulkLoad_eq]
    refine .index _ _ (.inr ⟨x, .inr (.inr rfl)⟩) fun h15 => ?_
    by_contra hx
    have hne : x.toNat ≠ 15 := fun hc => hx (beq_iff_eq.2 (BitVec.eq_of_toNat_eq hc))
    exact h15 (getElem_15_loadRegs (by simp; omega))
  · exact finish_error_effect rfl hf

/-- Every instruction answers a next state, and this is what it did (R108). -/
theorem exec_effect (i : Instr) (s : State) : ∃ t, exec i s = .next t ∧ Effect s i t := by
  cases i with
  | cls g => exact ⟨_, rfl, .screen blankFrame s.v (.inl ⟨g, rfl⟩) fun h => absurd rfl h⟩
  | ret g => exact execRet_effect g s
  | jp n => exact ⟨_, rfl, .flow _ fun _ => by have := addrOperand_toNat_lt n; omega⟩
  | call n => exact execCall_effect n s
  | seImm x n => exact ⟨_, rfl, .of_skipIf ..⟩
  | sneImm x n => exact ⟨_, rfl, .of_skipIf ..⟩
  | seReg x y g => exact ⟨_, rfl, .of_skipIf ..⟩
  | sneReg x y g => exact ⟨_, rfl, .of_skipIf ..⟩
  | ldImm x n => exact ⟨_, rfl, .of_setV x n beq_iff_eq.2⟩
  | addImm x n => exact ⟨_, rfl, .of_setV x _ beq_iff_eq.2⟩
  | ldReg x y => exact ⟨_, rfl, .of_setV x _ beq_iff_eq.2⟩
  | orReg x y => exact ⟨_, rfl, .of_setResultFlag x _ _ rfl⟩
  | andReg x y => exact ⟨_, rfl, .of_setResultFlag x _ _ rfl⟩
  | xorReg x y => exact ⟨_, rfl, .of_setResultFlag x _ _ rfl⟩
  | addReg x y => exact ⟨_, rfl, .of_setResultFlag x _ _ rfl⟩
  | sub x y => exact ⟨_, rfl, .of_setResultFlag x _ _ rfl⟩
  | shr x y => exact ⟨_, rfl, .of_setResultFlag x _ _ rfl⟩
  | subn x y => exact ⟨_, rfl, .of_setResultFlag x _ _ rfl⟩
  | shl x y => exact ⟨_, rfl, .of_setResultFlag x _ _ rfl⟩
  | ldI n => exact ⟨_, rfl, .index _ s.v (.inl ⟨n, rfl⟩) fun h => absurd rfl h⟩
  | jpV0 n => exact ⟨_, rfl, .flow _ fun _ => indexedTarget_toNat_le n s⟩
  | rnd x n => exact ⟨_, rfl, .of_setV x _ beq_iff_eq.2⟩
  | drw x y n => exact execDrw_effect x y n s
  | skp x => exact execSkp_effect x s
  | sknp x => exact execSknp_effect x s
  | ldVxDt x => exact ⟨_, rfl, .of_setV x _ beq_iff_eq.2⟩
  | ldVxK x => exact ⟨_, rfl, .await x⟩
  | ldDtVx x => exact ⟨_, rfl, .delay x⟩
  | ldStVx x => exact ⟨_, rfl, .sound x⟩
  | addI x => exact ⟨_, rfl, .index _ (setVF _ s).v (.inr ⟨x, .inl rfl⟩) fun _ => rfl⟩
  | ldF x => exact execLdF_effect x s
  | ldB x => exact execLdB_effect x s
  | ldMemVx x => exact execLdMemVx_effect x s
  | ldVxMem x => exact execLdVxMem_effect x s

theorem effect_of_exec {i : Instr} {s t : State} (h : exec i s = .next t) : Effect s i t := by
  obtain ⟨u, hu, he⟩ := exec_effect i s
  cases hu.symm.trans h
  exact he

/-! ## What an effect changes, piece by piece (R38) -/

namespace Effect

variable {i : Instr} {s t : State}

/-- The keypad snapshot, `sound_on` and the host's turns are no instruction's (R30, R34, R38). -/
theorem frame (he : Effect s i t) :
    t.keys = s.keys ∧ t.soundOn = s.soundOn ∧ t.inputs = s.inputs ∧ t.cycleNo = s.cycleNo := by
  cases he <;> exact ⟨rfl, rfl, rfl, rfl⟩

theorem index_changed (he : Effect s i t) (h : t.i ≠ s.i) :
    (∃ n, i = .ldI n) ∨ ∃ x, i = .addI x ∨ i = .ldF x ∨ i = .ldMemVx x ∨ i = .ldVxMem x := by
  cases he with
  | index w v hi =>
    exact hi.imp_right fun ⟨x, hx⟩ => ⟨x, hx.imp_right (Or.imp_right .inr)⟩
  | store x => exact .inr ⟨x, .inr (.inr (.inl rfl))⟩
  | _ => exact absurd rfl h

theorem stack_changed (he : Effect s i t) (h : t.stack ≠ s.stack ∨ t.sp ≠ s.sp) :
    (∃ n, i = .call n) ∨ ∃ g, i = .ret g := by
  cases he with
  | call n => exact .inl ⟨n, rfl⟩
  | ret g => exact .inr ⟨g, rfl⟩
  | _ => exact absurd h (by simp)

theorem dt_changed (he : Effect s i t) (h : t.dt ≠ s.dt) : ∃ x, i = .ldDtVx x := by
  cases he with
  | delay x => exact ⟨x, rfl⟩
  | _ => exact absurd rfl h

theorem st_changed (he : Effect s i t) (h : t.st ≠ s.st) : ∃ x, i = .ldStVx x := by
  cases he with
  | sound x => exact ⟨x, rfl⟩
  | _ => exact absurd rfl h

/-- The screen and `dirty` stay, or CLS or DXYN sets `dirty` (R28, R29). -/
theorem screen_cases (he : Effect s i t) :
    (t.fb = s.fb ∧ t.dirty = s.dirty) ∨
      (t.dirty = true ∧ ((∃ g, i = .cls g) ∨ ∃ x y n, i = .drw x y n)) := by
  cases he with
  | screen fb v hi => exact .inr ⟨rfl, hi⟩
  | _ => exact .inl ⟨rfl, rfl⟩

theorem mode_changed (he : Effect s i t) (h : t.mode ≠ s.mode) : ∃ x, i = .ldVxK x := by
  cases he with
  | await x => exact ⟨x, rfl⟩
  | _ => exact absurd rfl h

theorem mem_changed (he : Effect s i t) (h : t.mem ≠ s.mem) : ∃ x, i = .ldB x ∨ i = .ldMemVx x := by
  cases he with
  | bcd x => exact ⟨x, .inl rfl⟩
  | store x => exact ⟨x, .inr rfl⟩
  | _ => exact absurd rfl h

theorem vf_changed (he : Effect s i t) (h : getV 15 t ≠ getV 15 s) : writesVF i = true := by
  cases he with
  | registers v hVF => exact hVF h
  | screen fb v hi hVF => exact hVF h
  | index w v hi hVF => exact hVF h
  | _ => exact absurd rfl h

/-- An instruction halts the machine by a fault and in no other way. -/
theorem run_err_cases (he : Effect s i t) :
    (t.run = s.run ∧ t.err = s.err) ∨
      ∃ f, f.kind ≠ .noError ∧ t = raiseFault f (some (encode i)) s := by
  cases he with
  | fault f hmay hkind => exact .inr ⟨f, hkind, rfl⟩
  | _ => exact .inl ⟨rfl, rfl⟩

end Effect

/-- Settles O33: each column of the matrix is one case analysis over the effects. -/
theorem instructionsWriteOnlyWhatTheMatrixAllows : Obligations.InstructionsWriteOnlyWhatTheMatrixAllows := by
  intro i s t h
  have he := effect_of_exec h
  obtain ⟨hkeys, hsound, hinputs, hcycle⟩ := he.frame
  have hfb : t.fb ≠ s.fb → (∃ g, i = .cls g) ∨ ∃ x y n, i = .drw x y n := fun hne =>
    (he.screen_cases.resolve_left fun hs => hne hs.1).2
  have hdirty : t.dirty ≠ s.dirty → t.dirty = true ∧ ((∃ g, i = .cls g) ∨ ∃ x y n, i = .drw x y n) := fun hne =>
    he.screen_cases.resolve_left fun hs => hne hs.2
  exact ⟨hkeys, hsound, hinputs, hcycle, he.index_changed, he.stack_changed, he.dt_changed, he.st_changed, hfb,
    hdirty, he.mode_changed, he.mem_changed⟩

/-- Settles O34: the effects that write VF carry the proof that their instruction is listed. -/
theorem onlyListedInstructionsChangeVF : Obligations.OnlyListedInstructionsChangeVF :=
  fun _ _ _ h => (effect_of_exec h).vf_changed

/-! ## What a Cycle can do -/

/-- ResumeOrWait ends the wait behind FX0A, or keeps it where it stands with the present snapshot (R118). -/
theorem resumeOrWait_cases (ax : Nibble) (prev : KeySet) (s : State) :
    (∃ b, resumeOrWait ax prev s = { advancePc 2 (setV ax b s) with mode := .ready }) ∨
      resumeOrWait ax prev s = { s with mode := .awaitKey ax s.keys } := by
  unfold resumeOrWait
  cases lowestKey (risingKeys s.keys prev) with
  | some k => exact .inl ⟨_, rfl⟩
  | none => exact .inr rfl

/-- The wait check writes the register, pc and the mode only. -/
theorem resumeOrWait_eq (ax : Nibble) (prev : KeySet) (s : State) :
    ∃ v pc mode, resumeOrWait ax prev s = { s with v := v, pc := pc, mode := mode } := by
  obtain ⟨b, h⟩ | h := resumeOrWait_cases ax prev s
  · exact ⟨_, _, _, h⟩
  · exact ⟨_, _, _, h⟩

/-- The turn is a READY one that is not stopped (R100, R102). -/
structure ReadyTurn (s : State) : Prop where
  run : s.run = true
  unstopped : (turn s).stopIn = false
  ready : s.mode = .ready

theorem ReadyTurn.handlerState {s : State} (h : ReadyTurn s) : handlerState s = .ready := by
  simp [Machine.handlerState, h.run, h.ready]

theorem fetch_refreshKeys (s : State) : fetch (refreshKeys s) = fetch s := rfl

theorem fetch_hostClear (s : State) : fetch (hostClear s) = fetch s := rfl

/-- Everything one Cycle can do to the state `s` (R102 to R108, R118). -/
inductive CycleOutcome (s : State) : State → Prop
  /-- HALTED: nothing (R103). -/
  | halted (hrun : s.run = false) : CycleOutcome s s
  /-- The host stop (R104). -/
  | stopped (hrun : s.run = true) (hstop : (turn s).stopIn = true) : CycleOutcome s (stopRun s)
  /-- The wait check of an AWAITING cycle (R118). -/
  | waited {ax : Nibble} {prev : KeySet} (hrun : s.run = true) (hstop : (turn s).stopIn = false)
      (hmode : s.mode = .awaitKey ax prev) :
      CycleOutcome s (closeCycle (resumeOrWait ax prev (refreshKeys s)))
  /-- The fetch faults (R107). -/
  | fetchFault {f : Raised} (hr : ReadyTurn s) (hfetch : fetch s = .error f) :
      CycleOutcome s (closeCycle (raiseFault f none (refreshKeys s)))
  /-- The word is a decode error (R80, R106). -/
  | decodeError {w : Word} {e : DecodeError} (hr : ReadyTurn s) (hfetch : fetch s = .ok w)
      (hdec : decode w = .error e) :
      CycleOutcome s (closeCycle (raiseFault ⟨.decode, 0⟩ (some w) (refreshKeys s)))
  /-- An instruction is executed (R106, R108). -/
  | executed {w : Word} {i : Instr} {u : State} (hr : ReadyTurn s) (hfetch : fetch s = .ok w)
      (hdec : decode w = .ok i) (hexec : exec i (refreshKeys s) = .next u) : CycleOutcome s (closeCycle u)

theorem cycleOutcome_of_executeOne {s u : State} (hr : ReadyTurn s) (h : executeOne (refreshKeys s) = .next u) :
    CycleOutcome s (closeCycle u) := by
  unfold executeOne at h
  rw [fetch_refreshKeys] at h
  cases hfetch : fetch s with
  | error f =>
    simp only [hfetch, Host.Outcome.next.injEq] at h
    exact h ▸ .fetchFault hr hfetch
  | ok w =>
    simp only [hfetch] at h
    cases hdec : decode w with
    | error e =>
      simp only [hdec, Host.Outcome.next.injEq] at h
      exact h ▸ .decodeError hr hfetch hdec
    | ok i =>
      simp only [hdec] at h
      exact .executed hr hfetch hdec h

theorem cycleOutcome_of_cycle {s t : State} (h : cycle s = .next t) : CycleOutcome s t := by
  obtain ⟨hrun, hc⟩ | ⟨hrun, hstop, hc⟩ | ⟨hrun, hstop, hc⟩ := cycle_cases s <;> rw [hc] at h
  · cases h
    exact .halted hrun
  · cases h
    exact .stopped hrun hstop
  · obtain ⟨u, hu, rfl⟩ := mapNext_eq_next h
    simp only [runOrWait, refreshKeys_mode] at hu
    cases hmode : s.mode with
    | ready =>
      simp only [hmode] at hu
      exact cycleOutcome_of_executeOne ⟨hrun, hstop, hmode⟩ hu
    | awaitKey ax prev =>
      simp only [hmode, Host.Outcome.next.injEq] at hu
      exact hu ▸ .waited hrun hstop hmode

/-- A step is a ClearDirty or none, one Cycle, and the end of the turn. -/
theorem step_cases {s t : State} (h : step s = .next t) : ∃ u, CycleOutcome (hostClear s) u ∧ t = endTurn u := by
  obtain ⟨u, hu, ht⟩ := mapNext_eq_next h
  exact ⟨u, cycleOutcome_of_cycle hu, ht⟩

theorem fetch_error_kind {s : State} {f : Raised} (h : fetch s = .error f) : f.kind = .memRange := by
  rw [fetch_eq] at h
  split at h
  · cases h
  · cases h; rfl

theorem fetch_ok_pc_le {s : State} {w : Word} (h : fetch s = .ok w) : s.pc.toNat ≤ 0xFFE := by
  rw [fetch_eq] at h
  by_contra hpc
  rw [if_neg hpc] at h
  cases h

/-! ## The keypad snapshot -/

/-- Settles O16: every outcome of a running cycle keeps the snapshot that the refresh wrote. -/
theorem keypadIsRefreshedInRunningCycles : Obligations.KeypadIsRefreshedInRunningCycles := by
  intro s t h
  cases cycleOutcome_of_cycle h with
  | halted hrun => simp [hrun]
  | stopped hrun hstop => simp [hstop]
  | @waited ax prev hrun hstop hmode =>
    obtain ⟨v, pc, mode, hu⟩ := resumeOrWait_eq ax prev (refreshKeys s)
    simp [hrun, hstop, hu]
  | fetchFault hr hfetch => simp [hr.run, hr.unstopped]
  | decodeError hr hfetch hdec => simp [hr.run, hr.unstopped]
  | executed hr hfetch hdec hexec =>
    obtain ⟨hkeys, -⟩ := (effect_of_exec hexec).frame
    simp [hr.run, hr.unstopped, hkeys]

/-! ## The screen and `dirty` -/

/-- The turn is a READY one that is not stopped, and its fetched word is CLS or DXYN. -/
def DrawsInTurn (s : State) : Prop :=
  ReadyTurn s ∧ ∃ w, fetch s = .ok w ∧
    ((∃ g, decode w = .ok (.cls g)) ∨ ∃ x y n, decode w = .ok (.drw x y n))

theorem drawsInTurn_of_hostClear {s : State} (h : DrawsInTurn (hostClear s)) : DrawsInTurn s := by
  obtain ⟨⟨hrun, hstop, hmode⟩, hw⟩ := h
  rw [fetch_hostClear] at hw
  exact ⟨⟨hrun, hstop, hmode⟩, hw⟩

/-- The screen and `dirty` stay through a Cycle, or it executes CLS or DXYN and `dirty` is set. -/
theorem CycleOutcome.screen_cases {s t : State} (h : CycleOutcome s t) :
    (t.fb = s.fb ∧ t.dirty = s.dirty) ∨ (t.dirty = true ∧ DrawsInTurn s) := by
  cases h with
  | halted hrun => exact .inl ⟨rfl, rfl⟩
  | stopped hrun hstop => exact .inl ⟨rfl, rfl⟩
  | @waited ax prev hrun hstop hmode =>
    obtain ⟨v, pc, mode, hu⟩ := resumeOrWait_eq ax prev (refreshKeys s)
    exact .inl (by simp [hu])
  | fetchFault hr hfetch => exact .inl (by simp)
  | decodeError hr hfetch hdec => exact .inl (by simp)
  | @executed w i u hr hfetch hdec hexec =>
    obtain hsame | ⟨hdirty, hi⟩ := (effect_of_exec hexec).screen_cases
    · exact .inl (by simpa using hsame)
    · have hw : (∃ g, decode w = .ok (.cls g)) ∨ ∃ x y n, decode w = .ok (.drw x y n) := by
        simpa [hdec] using hi
      exact .inr ⟨by simpa using hdirty, hr, w, hfetch, hw⟩

/-- The same of a whole turn, whose ClearDirty comes first (R113). -/
theorem step_screen_cases {s t : State} (h : step s = .next t) :
    (t.fb = s.fb ∧ t.dirty = (s.dirty && !(turn s).clearDirty)) ∨ (t.dirty = true ∧ DrawsInTurn s) := by
  obtain ⟨u, hu, rfl⟩ := step_cases h
  exact hu.screen_cases.imp_right (And.imp_right drawsInTurn_of_hostClear)

/-- Settles O11: a turn keeps `dirty` behind its ClearDirty, or draws and sets it. -/
theorem dirtyFallsByClearDirtyOnly : Obligations.DirtyFallsByClearDirtyOnly := by
  intro s t h
  obtain ⟨-, hkept⟩ | ⟨hset, hr, hw⟩ := step_screen_cases h
  · exact ⟨.inr hkept, fun hne => absurd hkept hne⟩
  · exact ⟨.inl hset, fun _ => ⟨hr.handlerState, hr.unstopped, hw⟩⟩

/-- Settles O35: a turn that does not draw keeps the screen. -/
theorem onlyClsAndDrwChangePixels : Obligations.OnlyClsAndDrwChangePixels := by
  intro s t h hne
  obtain ⟨hkept, -⟩ | ⟨-, hr, hw⟩ := step_screen_cases h
  · exact absurd hkept hne
  · exact ⟨hr.handlerState, hw⟩

/-! ## The run flag, the record and the sound -/

/-- A machine that runs without an error ends its cycle in agreement. -/
theorem runErrAgree_closeCycle_running {u : State} (hrun : u.run = true) (herr : u.err = noError) :
    RunErrAgree (closeCycle u) := by
  simp [RunErrAgree, hrun, herr, noError]

/-- A cycle that took a fault ends in agreement: the record names the present pc and the sound is off (R111, R231). -/
theorem runErrAgree_closeCycle_fault {f : Raised} (hkind : f.kind ≠ .noError) (w : Option Word) (s : State) :
    RunErrAgree (closeCycle (raiseFault f w s)) := by
  simp [RunErrAgree, hkind]

theorem CycleOutcome.runErrAgree {s t : State} (h : CycleOutcome s t) (hs : RunErrAgree s) : RunErrAgree t := by
  have ⟨hnone, _, hempty, hpc⟩ := hs
  cases h with
  | halted hrun => exact hs
  | stopped hrun hstop => exact ⟨nofun, fun _ => rfl, hempty, hpc⟩
  | @waited ax prev hrun hstop hmode =>
    obtain ⟨v, pc, mode, hu⟩ := resumeOrWait_eq ax prev (refreshKeys s)
    rw [hu]
    exact runErrAgree_closeCycle_running hrun (hnone hrun)
  | fetchFault hr hfetch => exact runErrAgree_closeCycle_fault (by simp [fetch_error_kind hfetch]) _ _
  | decodeError hr hfetch hdec => exact runErrAgree_closeCycle_fault (by simp) _ _
  | executed hr hfetch hdec hexec =>
    obtain ⟨hrun, herr⟩ | ⟨f, hkind, rfl⟩ := (effect_of_exec hexec).run_err_cases
    · exact runErrAgree_closeCycle_running (hrun.trans hr.run) (herr.trans (hnone hr.run))
    · exact runErrAgree_closeCycle_fault hkind _ _

/-- A Cycle of a halted machine does nothing (R103). -/
theorem CycleOutcome.eq_of_halted {s t : State} (h : CycleOutcome s t) (hrun : s.run = false) : t = s := by
  cases h with
  | halted => rfl
  | stopped hr | waited hr => exact absurd (hrun.symm.trans hr) (by decide)
  | fetchFault hr | decodeError hr | executed hr => exact absurd (hrun.symm.trans hr.run) (by decide)

/-- Settles O24: a recorded fault is final because its machine is halted. -/
theorem stepKeepsRunAndErrorAgreeing : Obligations.StepKeepsRunAndErrorAgreeing := by
  intro s t hs h
  obtain ⟨u, hu, rfl⟩ := step_cases h
  refine ⟨hu.runErrAgree (s := hostClear s) hs, fun hkind => ?_⟩
  have ⟨hnone, _⟩ := hs
  have hrun : s.run = false := by
    by_contra hr
    exact hkind (congrArg ErrRecord.kind (hnone (by simpa using hr)))
  rw [hu.eq_of_halted hrun]
  rfl

/-! ## The bounds of pc and the stack -/

theorem PcBounded.congr {s t : State} (hs : PcBounded s) (hpc : t.pc = s.pc) (hstack : t.stack = s.stack)
    (hsp : t.sp = s.sp) (hmode : t.mode = s.mode) : PcBounded t := by
  unfold PcBounded
  rwa [hpc, hstack, hsp, hmode]

theorem pcBounded_of_ready {t : State} (hmode : t.mode = .ready) (hpc : t.pc.toNat ≤ 0x10FE)
    (hstack : ∀ k : Fin 16, k.val < t.sp.val → t.stack[k.val].toNat ≤ 0xFFE) : PcBounded t :=
  ⟨hpc, hstack, fun ax prev h => by cases hmode.symm.trans h⟩

theorem advancePc_pc_toNat_le (k : Nat) (s : State) : (advancePc k s).pc.toNat ≤ s.pc.toNat + k := by
  simp only [advancePc_pc, BitVec.toNat_ofNat]
  exact Nat.mod_le _ _

/-- `pc + 2` from a place that was fetched. -/
theorem PcBounded.advance {s u : State} (hs : PcBounded s) (hfetched : s.pc.toNat ≤ 0xFFE) (hready : s.mode = .ready)
    (hpc : u.pc = s.pc) (hstack : u.stack = s.stack) (hsp : u.sp = s.sp) (hmode : u.mode = s.mode) :
    PcBounded (advancePc 2 u) := by
  obtain ⟨-, hret, -⟩ := hs.congr hpc hstack hsp hmode
  refine pcBounded_of_ready (hmode.trans hready) ?_ hret
  have := advancePc_pc_toNat_le 2 u
  rw [hpc] at this
  omega

theorem Effect.pcBounded {i : Instr} {s t : State} (he : Effect s i t) (hs : PcBounded s)
    (hfetched : s.pc.toNat ≤ 0xFFE) (hready : s.mode = .ready) : PcBounded t := by
  have ⟨hpc, hret, _⟩ := hs
  cases he with
  | fault f => exact hs
  | flow target htarget => exact pcBounded_of_ready hready (htarget hfetched) hret
  | call nnn h =>
    refine pcBounded_of_ready hready (by have := addrOperand_toNat_lt nnn; simp; omega) fun k hk => ?_
    simp only [jumpTo_stack, Vector.getElem_set]
    split
    · exact hfetched
    · next hne =>
      have hk' : k.val < s.sp.val + 1 := hk
      exact hret k (by omega)
  | ret ign h =>
    have htop : (s.stack[s.sp.val - 1]'(by omega)).toNat ≤ 0xFFE :=
      hret ⟨s.sp.val - 1, by omega⟩ (by simp; omega)
    refine pcBounded_of_ready hready ?_ fun k hk => ?_
    · exact (advancePc_pc_toNat_le 2 _).trans (by simp only [jumpTo_pc]; omega)
    · have hk' : k.val < s.sp.val - 1 := hk
      exact hret k (by omega)
  | await x => exact ⟨hpc, hret, fun _ _ _ => hfetched⟩
  | _ => exact hs.advance hfetched hready rfl rfl rfl rfl

theorem PcBounded.closeCycle {s : State} (h : PcBounded s) : PcBounded (closeCycle s) :=
  h.congr (closeCycle_pc s) (closeCycle_stack s) (closeCycle_sp s) (closeCycle_mode s)

theorem PcBounded.resumeOrWait {s : State} {ax : Nibble} {prev : KeySet} (h : PcBounded s)
    (hfetched : s.pc.toNat ≤ 0xFFE) : PcBounded (resumeOrWait ax prev s) := by
  have ⟨hpc, hret, _⟩ := h
  obtain ⟨b, hu⟩ | hu := resumeOrWait_cases ax prev s <;> rw [hu]
  · exact pcBounded_of_ready rfl ((advancePc_pc_toNat_le 2 _).trans (by simp only [setV_pc]; omega)) hret
  · exact ⟨hpc, hret, fun _ _ _ => hfetched⟩

theorem CycleOutcome.pcBounded {s t : State} (h : CycleOutcome s t) (hs : PcBounded s) : PcBounded t := by
  cases h with
  | halted hrun => exact hs
  | stopped hrun hstop => exact hs
  | waited hrun hstop hmode =>
    have ⟨_, _, hwait⟩ := hs
    exact (PcBounded.resumeOrWait (s := refreshKeys s) hs (hwait _ _ hmode)).closeCycle
  | fetchFault hr hfetch => exact PcBounded.closeCycle hs
  | decodeError hr hfetch hdec => exact PcBounded.closeCycle hs
  | executed hr hfetch hdec hexec =>
    exact ((effect_of_exec hexec).pcBounded hs (fetch_ok_pc_le hfetch) hr.ready).closeCycle

/-- Settles O25: the bounds depend on nothing that ClearDirty or the end of the turn writes. -/
theorem stepKeepsPcBounded : Obligations.StepKeepsPcBounded := by
  intro s t hs h
  obtain ⟨u, hu, rfl⟩ := step_cases h
  exact hu.pcBounded (s := hostClear s) hs

/-! ## CALL and RET -/

/-- Settles O41: RET pops the slot CALL wrote, which holds the CALL's own pc. -/
theorem retUndoesCall : Obligations.RetUndoesCall := by
  intro nnn g s hsp
  refine ⟨_, execCall_ok nnn s hsp, fun u hstack husp => ?_⟩
  have hpop : 0 < u.sp.val := by rw [husp]; exact Nat.succ_pos _
  have hslot : u.sp.val - 1 = s.sp.val := by rw [husp]; rfl
  have htop : u.stack[u.sp.val - 1]'(by omega) = s.pc := by simp [hslot, hstack]
  refine ⟨_, execRet_ok g u hpop, Fin.ext hslot, ?_⟩
  simp [PcAdvanced, htop]

/-! ## Construction -/

/-- The state that Construct loads the ROM into: FONT, and zeros everywhere else (R37, R260). -/
def cleared (font : Vector Byte 80) : State := { State.reset with mem := { font := font, cells := [] } }

theorem construct_eq_load (font : Vector Byte 80) (rom : RomInput) : construct font rom = load rom (cleared font) := rfl

/-- A ROM that fits is copied, and nothing else is done (R261). -/
theorem construct_fits (font : Vector Byte 80) (b : List Byte) (h : b.length ≤ 3584) :
    construct font (.bytes b) = { cleared font with mem := copyBytes 0x200 b (cleared font).mem } := by
  have hfits : ¬ 3584 < b.length := by omega
  simp only [construct_eq_load, load, hfits, if_false]
  rfl

theorem construct_tooLong (font : Vector Byte 80) (b : List Byte) (h : 3584 < b.length) :
    construct font (.bytes b) = loadFail b.length (cleared font) := by
  simp only [construct_eq_load, load, h, if_true]

theorem cleared_wf (font : Vector Byte 80) : (cleared font).mem.wf = true := rfl

theorem cleared_byteAt_ram (font : Vector Byte 80) (a : Nat) (h : 0x50 ≤ a) : (cleared font).mem.byteAt a = 0 :=
  unlisted_ram _ a h

theorem cleared_pcBounded (font : Vector Byte 80) : PcBounded (cleared font) :=
  pcBounded_of_ready rfl (show (0x200 : Word).toNat ≤ 0x10FE by decide) fun _ hk => absurd hk (Nat.not_lt_zero _)

theorem cleared_runErrAgree (font : Vector Byte 80) : RunErrAgree (cleared font) :=
  ⟨fun _ => rfl, nofun, fun _ => rfl, fun h => absurd rfl h⟩

/-- A failed load is recorded at the pc the machine stands at, and the machine is halted and silent (R262). -/
theorem loadFail_cleared_safe (n : Nat) (font : Vector Byte 80) : Safe (loadFail n (cleared font)) :=
  ⟨cleared_wf font, ⟨nofun, fun _ => rfl, nofun, fun _ => rfl⟩, cleared_pcBounded font⟩

/-- Settles O27: a ROM that fits is copied above the font region byte by byte; a load that fails copies nothing. -/
theorem constructionIsSafe : Obligations.ConstructionIsSafe := by
  intro font rom
  cases rom with
  | readFailure => exact loadFail_cleared_safe 0 font
  | bytes b =>
    by_cases hb : b.length ≤ 3584
    · rw [construct_fits font b hb]
      have hwf := copyBytes_wf 0x200 b (cleared font).mem (cleared_wf font) (by omega) (by omega)
      exact ⟨hwf, cleared_runErrAgree font, cleared_pcBounded font⟩
    · rw [construct_tooLong font b (by omega)]
      exact loadFail_cleared_safe _ font

/-- Settles O26: reset is the construction with the default font and an empty ROM. -/
theorem resetIsSafe : Obligations.ResetIsSafe := constructionIsSafe Config.defaultFont (.bytes [])

/-- Settles O30: outside the ROM's bytes memory reads as it was cleared. -/
theorem constructBuildsTheListedState : Obligations.ConstructBuildsTheListedState := by
  intro font b hb
  rw [construct_fits font b hb]
  refine ⟨fun a h => ?font, fun a hlo hhi => ?below, fun k h => ?rom, fun a hlo hhi => ?above, fun r => ?regs,
    fun k => ?stack, fun px py => ?pixels, rfl⟩
  case font =>
    exact (byteAt_copyBytes_outside 0x200 a b _ (.inl (by omega))).trans (byteAt_font _ a (cleared_wf font) h)
  case below => exact (byteAt_copyBytes_outside 0x200 a b _ (.inl hhi)).trans (cleared_byteAt_ram font a hlo)
  case rom => exact byteAt_copyBytes_inside 0x200 k b _ (cleared_wf font) (by omega) (by omega) h
  case above =>
    exact (byteAt_copyBytes_outside 0x200 a b _ (.inr hlo)).trans (cleared_byteAt_ram font a (by omega))
  case regs => simp [getV, cleared, State.reset]
  case stack => simp [cleared, State.reset]
  case pixels => simp [pixel, cleared, State.reset]

end Sys2Proof.Machine

namespace Sys2Proof.Machine

/-! # Memory

The layer for the statements about spec/20_memory.md: what the two accesses answer on each range of addresses, and
everything a turn can do to memory, which is nothing or a store above the font region. -/

/-! ## MemRead and MemWrite on each range -/

theorem memRead_range {a : Nat} (s : State) (h : 0xFFF < a) : memRead a s = .error ⟨.memRange, a⟩ := by
  simp only [memRead, h, if_true]

theorem memWrite_range {a : Nat} (v : Byte) (s : State) (h : 0xFFF < a) :
    memWrite a v s = .error ⟨.memRange, a⟩ := by
  simp only [memWrite, h, if_true]

theorem memWrite_protect {a : Nat} (v : Byte) (s : State) (h : a ≤ 0x04F) :
    memWrite a v s = .error ⟨.memProtect, a⟩ := by
  have hrange : ¬ 0xFFF < a := by omega
  simp only [memWrite, hrange, h, if_false, if_true]

/-- A read sees nothing of the state but the byte at its own address. -/
theorem memRead_congr {s t : State} {a : Nat} (h : t.mem.byteAt a = s.mem.byteAt a) : memRead a t = memRead a s := by
  simp only [memRead, h]

/-- A write that succeeds is in 0x050..0xFFF, and puts its byte. -/
theorem memWrite_eq_ok {a : Nat} {v : Byte} {s t : State} (h : memWrite a v s = .ok t) :
    0x50 ≤ a ∧ a ≤ 0xFFF ∧ t = { s with mem := s.mem.put a v } := by
  by_cases hhi : a ≤ 0xFFF
  · by_cases hlo : 0x50 ≤ a
    · rw [memWrite_ok v s hlo hhi] at h
      cases h
      exact ⟨hlo, hhi, rfl⟩
    · rw [memWrite_protect v s (by omega)] at h
      cases h
  · rw [memWrite_range v s (by omega)] at h
    cases h

/-- Settles O19: one clause per range of addresses; the byte put reads back and no other read sees it. -/
theorem checkedAccessReadsAndWrites : Obligations.CheckedAccessReadsAndWrites := by
  intro s a v
  refine ⟨fun h => ⟨memRead_range s h, memWrite_range v s h⟩, memWrite_protect v s, memRead_ok s,
    fun hwf hlo hhi => ⟨_, memWrite_ok v s hlo hhi, ?back, fun b hb => ?others, rfl⟩⟩
  case back => rw [memRead_ok _ hhi, byteAt_put_self s.mem a v hwf hlo]
  case others => exact memRead_congr (byteAt_put_other s.mem a b v hb)

/-! ## A store and a later fetch -/

theorem fetch_ok {s : State} (h : s.pc.toNat ≤ 0xFFE) :
    fetch s = .ok (wordOfBytes (s.mem.byteAt s.pc.toNat) (s.mem.byteAt (s.pc.toNat + 1))) := by
  rw [fetch_eq, if_pos h]

/-- Settles O20: of the two bytes fetched, one is the byte put and the other stands at another address. -/
theorem storedByteIsFetched : Obligations.StoredByteIsFetched := by
  intro s t u a v hwf hwrite hmem
  obtain ⟨hlo, hhi, rfl⟩ := memWrite_eq_ok hwrite
  have hnew : u.mem.byteAt a = v := by rw [hmem]; exact byteAt_put_self s.mem a v hwf hlo
  have hold : ∀ b, b ≠ a → u.mem.byteAt b = s.mem.byteAt b := fun b hb => by
    rw [hmem]; exact byteAt_put_other s.mem a b v hb
  refine ⟨fun hpc hle => ?high, fun hpc => ?low⟩
  case high => rw [fetch_ok (by omega), hpc, hnew, hold (a + 1) (by omega)]
  case low => rw [fetch_ok (by omega), hpc, hnew, hold u.pc.toNat (by omega)]

/-! ## What a turn can do to memory -/

/-- `m'` is `m` with bytes copied to consecutive addresses, all of them in 0x050..0xFFF. -/
def StoredAboveFont (m m' : Memory) : Prop :=
  ∃ base bs, 0x50 ≤ base ∧ base + bs.length ≤ 0x1000 ∧ m' = copyBytes base bs m

theorem StoredAboveFont.wf {m m' : Memory} (h : StoredAboveFont m m') (hwf : m.wf = true) : m'.wf = true := by
  obtain ⟨base, bs, hlo, hhi, rfl⟩ := h
  exact copyBytes_wf base bs m hwf hlo hhi

theorem StoredAboveFont.byteAt_font {m m' : Memory} (h : StoredAboveFont m m') {a : Nat} (ha : a ≤ 0x04F) :
    m'.byteAt a = m.byteAt a := by
  obtain ⟨base, bs, hlo, -, rfl⟩ := h
  exact byteAt_copyBytes_outside base a bs m (.inl (by omega))

/-- FX33 and FX55 store above the font region (R208, R209); no other instruction touches memory (R58). -/
theorem Effect.mem_cases {i : Instr} {s t : State} (he : Effect s i t) :
    t.mem = s.mem ∨ (StoredAboveFont s.mem t.mem ∧ ∃ x, i = .ldB x ∨ i = .ldMemVx x) := by
  cases he with
  | bcd x hlo hhi =>
    have hb : memBase s + (bcdDigits (getV x s)).length ≤ 0x1000 := by simp [bcdDigits]; omega
    exact .inr ⟨⟨_, _, hlo, hb, rfl⟩, x, .inl rfl⟩
  | store x hlo hhi =>
    have hb : memBase s + (regsUpTo x s).length ≤ 0x1000 := by rw [length_regsUpTo]; omega
    exact .inr ⟨⟨_, _, hlo, hb, rfl⟩, x, .inr rfl⟩
  | _ => exact .inl rfl

/-- The turn is a READY one that is not stopped, and its fetched word is FX33 or FX55. -/
def StoresInTurn (s : State) : Prop :=
  ReadyTurn s ∧ ∃ w x, fetch s = .ok w ∧ (decode w = .ok (.ldB x) ∨ decode w = .ok (.ldMemVx x))

theorem storesInTurn_of_hostClear {s : State} (h : StoresInTurn (hostClear s)) : StoresInTurn s := by
  obtain ⟨⟨hrun, hstop, hmode⟩, hw⟩ := h
  rw [fetch_hostClear] at hw
  exact ⟨⟨hrun, hstop, hmode⟩, hw⟩

/-- Memory stays through a Cycle, or it executes FX33 or FX55 and stores above the font region. -/
theorem CycleOutcome.mem_cases {s t : State} (h : CycleOutcome s t) :
    t.mem = s.mem ∨ (StoredAboveFont s.mem t.mem ∧ StoresInTurn s) := by
  cases h with
  | halted hrun => exact .inl rfl
  | stopped hrun hstop => exact .inl rfl
  | @waited ax prev hrun hstop hmode =>
    obtain ⟨v, pc, mode, hu⟩ := resumeOrWait_eq ax prev (refreshKeys s)
    exact .inl (by simp [hu])
  | fetchFault hr hfetch => exact .inl (by simp)
  | decodeError hr hfetch hdec => exact .inl (by simp)
  | @executed w i u hr hfetch hdec hexec =>
    rw [closeCycle_mem]
    refine (effect_of_exec hexec).mem_cases.imp_right fun ⟨hstored, x, hi⟩ => ⟨hstored, hr, w, x, hfetch, ?_⟩
    simpa [hdec] using hi

/-- The same of a whole turn: neither ClearDirty nor the turn's end touches memory. -/
theorem step_mem_cases {s t : State} (h : step s = .next t) :
    t.mem = s.mem ∨ (StoredAboveFont s.mem t.mem ∧ StoresInTurn s) := by
  obtain ⟨u, hu, rfl⟩ := step_cases h
  exact hu.mem_cases.imp_right (And.imp_right storesInTurn_of_hostClear)

/-- Settles O23: a store above the font region keeps the canonical form, byte by byte. -/
theorem stepKeepsMemoryCanonical : Obligations.StepKeepsMemoryCanonical := by
  intro s t hwf h
  obtain hkept | ⟨hstored, -⟩ := step_mem_cases h
  · rwa [hkept]
  · exact hstored.wf hwf

/-- Settles O21: a store above the font region leaves every byte below it. -/
theorem fontRegionNeverChanges : Obligations.FontRegionNeverChanges := by
  intro s t a h ha
  obtain hkept | ⟨hstored, -⟩ := step_mem_cases h
  · rw [hkept]
  · exact hstored.byteAt_font ha

/-- Settles O22: a turn that does not store keeps memory. -/
theorem onlyStoresChangeMemory : Obligations.OnlyStoresChangeMemory := by
  intro s t h hne
  obtain ⟨-, hr, hw⟩ := (step_mem_cases h).resolve_left hne
  exact ⟨hr.handlerState, hw⟩

end Sys2Proof.Machine

namespace Sys2Proof

/-! # Encoding

The layer for the statements about spec/30_encoding.md. A word is put together again from its fields (R71), one lemma
per format; `ReadsBack` then says once everything the decoder can answer. -/

/-! ## The decoder on the encoder's words -/

/-- Decoding the encoder's word: the family nibble selects the arm (R74), the sub-operation selects the arm inside
families 0, 8, E and F (R75 to R78), and each field is read from where the format puts it. -/
theorem decode_encode (i : Instr) : decode (encode i) = .ok i := by
  cases i with
  | cls g | ret g => simp [encode, decode, decode0]
  | jp nnn | call nnn | ldI nnn | jpV0 nnn => simp [encode, decode]
  | seImm x nn | sneImm x nn | ldImm x nn | addImm x nn | rnd x nn => simp [encode, decode]
  | seReg x y n | sneReg x y n | drw x y n => simp [encode, decode]
  | ldReg x y | orReg x y | andReg x y | xorReg x y | addReg x y | sub x y | shr x y | subn x y | shl x y =>
    simp [encode, decode, decode8]
  | skp x | sknp x => simp [encode, decode, decodeE]
  | ldVxDt x | ldVxK x | ldDtVx x | ldStVx x | addI x | ldF x | ldB x | ldMemVx x | ldVxMem x =>
    simp [encode, decode, decodeF]

/-- Settles O1: the encoder's formats hold every field apart from the others. -/
theorem decodeOfEncodeIsTheInstruction : Obligations.DecodeOfEncodeIsTheInstruction := decode_encode

/-! ## Words as numbers -/

/-- Settles O2: the number of each format, with the family and sub-operation of each row put in. -/
theorem encodedWordsMatchTheirPatterns : Obligations.EncodedWordsMatchTheirPatterns := by
  refine ⟨fun g => ?formatF0, fun nnn => ?formatNnn, fun x nn => ?formatXnn, fun x y n => ?formatXyn,
    fun x y => ?family8, fun x => ?formatXs⟩
  case formatF0 => simp [encode, wordF0_toNat]; omega
  case formatNnn => simp [encode, wordNnn_toNat]
  case formatXnn => simp [encode, wordXnn_toNat]; omega
  case formatXyn => simp [encode, word4_toNat]; omega
  case family8 => simp [encode, word4_toNat]; omega
  case formatXs => simp [encode, wordXnn_toNat]; omega

/-- Settles O5: the vectors' words are closed terms, so the decoder is run on each. -/
theorem listedWordsDecodeAsListed : Obligations.ListedWordsDecodeAsListed := by
  unfold Obligations.ListedWordsDecodeAsListed
  decide

/-! ## A word from its fields -/

theorem word4_of_fields {w : Word} {op n : Nibble} (hop : (opField w).toNat = op.toNat)
    (hn : (nField w).toNat = n.toNat) : word4 op (xField w) (yField w) n = w := by
  apply BitVec.eq_of_toNat_eq
  rw [word4_toNat, ← hop, ← hn, opField_toNat, xField_toNat, yField_toNat, nField_toNat]
  omega

theorem wordXnn_of_fields {w : Word} {op : Nibble} {nn : Byte} (hop : (opField w).toNat = op.toNat)
    (hnn : (nnField w).toNat = nn.toNat) : wordXnn op (xField w) nn = w := by
  apply BitVec.eq_of_toNat_eq
  rw [wordXnn_toNat, ← hop, ← hnn, opField_toNat, xField_toNat, nnField_toNat]
  omega

theorem wordNnn_of_fields {w : Word} {op : Nibble} (hop : (opField w).toNat = op.toNat) :
    wordNnn op (nnnField w) = w := by
  apply BitVec.eq_of_toNat_eq
  rw [wordNnn_toNat, ← hop, opField_toNat, nnnField_toNat]
  omega

theorem wordF0_of_fields {w : Word} {n : Nibble} (hop : (opField w).toNat = 0) (hn : (nField w).toNat = n.toNat) :
    wordF0 (ignF0Field w) n = w := by
  rw [opField_toNat] at hop
  apply BitVec.eq_of_toNat_eq
  rw [wordF0_toNat, ← hn, ignF0Field_toNat, nField_toNat]
  omega

/-! ## What the decoder can answer -/

/-- The answer `r` to the word `w` is an instruction whose word is `w`, and `w` is legal by R80's own list; or it is an
error, and `w` is not legal. -/
def ReadsBack (w : Word) (r : Except DecodeError Instr) : Prop :=
  match r with
  | .ok i => legalWord w = true ∧ encode i = w
  | .error _ => legalWord w = false

theorem decode0_readsBack {w : Word} (hop : (opField w).toNat = 0x0) : ReadsBack w (decode0 w) := by
  unfold decode0
  split
  case h_3 =>
    change legalWord w = false
    simp_all [legalWord_fields]
  all_goals
    next hn => exact ⟨by simp [legalWord_fields, hop, hn], wordF0_of_fields hop hn⟩

theorem decode8_readsBack {w : Word} (hop : (opField w).toNat = 0x8) : ReadsBack w (decode8 w) := by
  unfold decode8
  split
  case h_10 =>
    change legalWord w = false
    simp_all [legalWord_fields]
  all_goals
    next hn => exact ⟨by simp [legalWord_fields, hop, hn], word4_of_fields hop hn⟩

theorem decodeE_readsBack {w : Word} (hop : (opField w).toNat = 0xE) : ReadsBack w (decodeE w) := by
  unfold decodeE
  split
  case h_3 =>
    change legalWord w = false
    simp_all [legalWord_fields]
  all_goals
    next hnn => exact ⟨by simp [legalWord_fields, hop, hnn], wordXnn_of_fields hop hnn⟩

theorem decodeF_readsBack {w : Word} (hop : (opField w).toNat = 0xF) : ReadsBack w (decodeF w) := by
  unfold decodeF
  split
  case h_10 =>
    change legalWord w = false
    simp_all [legalWord_fields]
  all_goals
    next hnn => exact ⟨by simp [legalWord_fields, hop, hnn], wordXnn_of_fields hop hnn⟩

theorem decode_readsBack (w : Word) : ReadsBack w (decode w) := by
  unfold decode
  split
  case h_1 hop => exact decode0_readsBack hop
  case h_9 hop => exact decode8_readsBack hop
  case h_15 hop => exact decodeE_readsBack hop
  case h_16 =>
    have hop : (opField w).toNat = 0xF := by
      have hlt := (opField w).isLt
      simp only [imp_false] at *
      omega
    exact decodeF_readsBack hop
  case h_2 hop | h_3 hop | h_11 hop | h_12 hop =>
    exact ⟨by simp [legalWord_fields, hop], wordNnn_of_fields hop⟩
  case h_4 hop | h_5 hop | h_7 hop | h_8 hop | h_13 hop =>
    exact ⟨by simp [legalWord_fields, hop], wordXnn_of_fields hop rfl⟩
  case h_6 hop | h_10 hop | h_14 hop =>
    exact ⟨by simp [legalWord_fields, hop], word4_of_fields hop rfl⟩

/-- Settles O3: every arm of the decoder reads its instruction back. -/
theorem encodeOfDecodeIsTheWord : Obligations.EncodeOfDecodeIsTheWord := by
  intro w i h
  have hread := decode_readsBack w
  rw [h] at hread
  obtain ⟨-, hword⟩ := hread
  exact hword

theorem decode_error_iff (w : Word) : (∃ e, decode w = .error e) ↔ legalWord w = false := by
  have hread := decode_readsBack w
  cases hdec : decode w <;> rw [hdec] at hread
  case ok i =>
    obtain ⟨hlegal, -⟩ := hread
    simp [hlegal]
  case error e => exact ⟨fun _ => hread, fun _ => ⟨e, rfl⟩⟩

/-! ## The words of R80 -/

/-- R80's list, on the word as a number. -/
theorem legalWord_eq_false_iff (w : Word) :
    legalWord w = false ↔
      (w.toNat / 4096 = 0x0 ∧ w.toNat % 16 ∉ [0x0, 0xE]) ∨
      (w.toNat / 4096 = 0x8 ∧ 7 < w.toNat % 16 ∧ w.toNat % 16 ≠ 0xE) ∨
      (w.toNat / 4096 = 0xE ∧ w.toNat % 256 ∉ [0x9E, 0xA1]) ∨
      (w.toNat / 4096 = 0xF ∧ w.toNat % 256 ∉ [0x07, 0x0A, 0x15, 0x18, 0x1E, 0x29, 0x33, 0x55, 0x65]) := by
  have hop : w.toNat / 4096 % 16 = w.toNat / 4096 := Nat.mod_eq_of_lt (by omega)
  rw [legalWord_fields, opField_toNat, nField_toNat, nnField_toNat, hop]
  split_ifs with h0 h8 hE hF
  · simp [h0]
  · simp [h8]; omega
  · simp [hE]
  · simp [hF]
  · simp [h0, h8, hE, hF]

end Sys2Proof

namespace Sys2Proof.Machine

theorem executeOne_of_decode_error {s : State} {w : Word} {e : DecodeError} (hfetch : fetch s = .ok w)
    (hdec : decode w = .error e) : executeOne s = .next (raiseFault ⟨.decode, 0⟩ (some w) s) := by
  simp only [executeOne, hfetch, hdec]

/-- Settles O4: the decoder refuses the words that are not legal, and those are R80's. -/
theorem decodeErrorsAreTheListedWords : Obligations.DecodeErrorsAreTheListedWords := by
  intro w
  refine ⟨(decode_error_iff w).trans (legalWord_eq_false_iff w), fun s hfetch ⟨e, hdec⟩ => ?_⟩
  exact executeOne_of_decode_error hfetch hdec

/-! ## Ignored bits -/

theorem execRet_underflow (ign : Byte) (s : State) (h : s.sp.val = 0) :
    execRet ign s = .next (raiseFault ⟨.stackUnderflow, 0⟩ (some (encode (.ret ign))) s) := by
  rw [execRet, popStack_empty s h]; rfl

/-- Settles O36: no handler reads the ignored bits but RET, and RET only for the word its fault records. -/
theorem ignoredBitsChangeNoEffect : Obligations.IgnoredBitsChangeNoEffect := by
  intro x y y' a a' g g' s
  refine ⟨rfl, rfl, rfl, rfl, rfl, fun hactive => ?returns, fun hempty => ?underflows⟩
  case returns => exact (execRet_ok g s hactive).trans (execRet_ok g' s hactive).symm
  case underflows => exact ⟨_, _, execRet_underflow g s hempty, execRet_underflow g' s hempty, rfl⟩

end Sys2Proof.Machine

namespace Sys2Proof.Machine

/-! # Dispatch

The layer for the statements about spec/40_dispatch.md. `executeOne_cases` and `resumeOrWait_spec` say everything the
instruction and the wait check of a cycle can do; the equations of `cycle` and `step` say which of them a turn runs. -/

/-! ## Host reads -/

/-- Settles O32: column and row are the remainder and the quotient by 64. -/
theorem hostReadsAreRowMajorAndExact : Obligations.HostReadsAreRowMajorAndExact := by
  refine fun s => ⟨fun px py => ?_, rfl⟩
  have hcol : (py.val * 64 + px.val) % 64 = px.val := by omega
  have hrow : (py.val * 64 + px.val) / 64 = py.val := by omega
  simp [readFramebuffer, hcol, hrow]

/-! ## Fetch and ExecuteOne -/

theorem fetch_range {s : State} (h : 0xFFE < s.pc.toNat) :
    fetch s = .error ⟨.memRange, max s.pc.toNat 0x1000⟩ := by
  rw [fetch_eq, if_neg (by omega)]

theorem executeOne_of_fetch_error {s : State} {f : Raised} (hfetch : fetch s = .error f) :
    executeOne s = .next (raiseFault f none s) := by
  simp only [executeOne, hfetch]

theorem executeOne_of_decode_ok {s : State} {w : Word} {i : Instr} (hfetch : fetch s = .ok w)
    (hdec : decode w = .ok i) : executeOne s = exec i s := by
  simp only [executeOne, hfetch, hdec]

/-- Settles O6: the two ranges of pc. -/
theorem fetchIsBigEndianOrFaults : Obligations.FetchIsBigEndianOrFaults := by
  refine fun s => ⟨fun h => ⟨_, fetch_ok h, wordOfBytes_toNat _ _⟩, fun h => ?_⟩
  exact ⟨fetch_range h, executeOne_of_fetch_error (fetch_range h)⟩

/-- ExecuteOne takes a fault, or executes the decoded instruction and keeps the run flag and the record (R106). -/
theorem executeOne_cases (s : State) :
    (∃ f w, f.kind ≠ .noError ∧ executeOne s = .next (raiseFault f w s)) ∨
      ∃ w i u, fetch s = .ok w ∧ decode w = .ok i ∧ exec i s = .next u ∧ executeOne s = .next u ∧
        u.run = s.run ∧ u.err = s.err := by
  cases hfetch : fetch s with
  | error f => exact .inl ⟨f, none, by simp [fetch_error_kind hfetch], executeOne_of_fetch_error hfetch⟩
  | ok w =>
    cases hdec : decode w with
    | error e => exact .inl ⟨_, _, by simp, executeOne_of_decode_error hfetch hdec⟩
    | ok i =>
      obtain ⟨u, hu, he⟩ := exec_effect i s
      have hone := (executeOne_of_decode_ok hfetch hdec).trans hu
      obtain ⟨hrun, herr⟩ | ⟨f, hkind, rfl⟩ := he.run_err_cases
      · exact .inr ⟨w, i, u, rfl, hdec, hu, hone, hrun, herr⟩
      · exact .inl ⟨f, _, hkind, hone⟩

theorem executeOne_next (s : State) : ∃ u, executeOne s = .next u := by
  obtain ⟨f, w, -, h⟩ | ⟨w, i, u, -, -, -, h, -⟩ := executeOne_cases s
  · exact ⟨_, h⟩
  · exact ⟨u, h⟩

/-! ## The equations of a cycle and of a step -/

theorem runOrWait_ready {s : State} (h : s.mode = .ready) : runOrWait s = executeOne s := by
  simp only [runOrWait, h]

theorem runOrWait_awaitKey {s : State} {ax : Nibble} {prev : KeySet} (h : s.mode = .awaitKey ax prev) :
    runOrWait s = .next (resumeOrWait ax prev s) := by
  simp only [runOrWait, h]

theorem cycle_halted {s : State} (hrun : s.run = false) : cycle s = .next s := by
  simp [cycle, hrun]

theorem cycle_stopped {s : State} (hrun : s.run = true) (hstop : (turn s).stopIn = true) :
    cycle s = .next (stopRun s) := by
  simp [cycle, hrun, hstop]

theorem cycle_unstopped {s : State} (hrun : s.run = true) (hstop : (turn s).stopIn = false) :
    cycle s = mapNext closeCycle (runOrWait (refreshKeys s)) := by
  simp [cycle, hrun, hstop]

/-- The cycle of a machine that waits: the wait check, which keeps it running, and then the timer phase. -/
theorem cycle_waiting {s : State} {ax : Nibble} {prev : KeySet} (hrun : s.run = true)
    (hmode : s.mode = .awaitKey ax prev) (hstop : (turn s).stopIn = false) :
    cycle s = .next (timerPhase (resumeOrWait ax prev (refreshKeys s))) := by
  obtain ⟨v, pc, mode, hu⟩ := resumeOrWait_eq ax prev (refreshKeys s)
  have hstill : (resumeOrWait ax prev (refreshKeys s)).run = true := by rw [hu]; exact hrun
  rw [cycle_unstopped hrun hstop, runOrWait_awaitKey (s := refreshKeys s) hmode, mapNext_next,
    closeCycle_running _ hstill]

theorem ReadyTurn.cycle_eq {s : State} (h : ReadyTurn s) :
    cycle s = mapNext closeCycle (executeOne (refreshKeys s)) := by
  rw [cycle_unstopped h.run h.unstopped, runOrWait_ready (s := refreshKeys s) h.ready]

theorem ReadyTurn.hostClear {s : State} (h : ReadyTurn s) : ReadyTurn (hostClear s) :=
  ⟨h.run, h.unstopped, h.ready⟩

theorem ReadyTurn.step_eq {s : State} (h : ReadyTurn s) :
    step s = mapNext endTurn (mapNext closeCycle (executeOne (refreshKeys (Machine.hostClear s)))) :=
  congrArg (mapNext endTurn) h.hostClear.cycle_eq

/-- Settles O7: the fetch of a READY turn is not disturbed by ClearDirty or the keypad refresh. -/
theorem stepRunsTheDecodedInstruction : Obligations.StepRunsTheDecodedInstruction := by
  intro s i hrun hmode hstop hpc hdec
  have hr : ReadyTurn s := ⟨hrun, hstop, hmode⟩
  have hfetch := fetch_ok (s := refreshKeys (hostClear s)) hpc
  rw [hr.step_eq, executeOne_of_decode_ok hfetch hdec]
  rfl

theorem runOrWait_next (s : State) : ∃ u, runOrWait s = .next u := by
  cases hmode : s.mode with
  | ready => exact runOrWait_ready hmode ▸ executeOne_next s
  | awaitKey ax prev => exact ⟨_, runOrWait_awaitKey hmode⟩

theorem cycle_next (s : State) : ∃ t, cycle s = .next t := by
  obtain ⟨-, h⟩ | ⟨-, -, h⟩ | ⟨-, -, h⟩ := cycle_cases s
  · exact ⟨_, h⟩
  · exact ⟨_, h⟩
  · obtain ⟨u, hu⟩ := runOrWait_next (refreshKeys s)
    exact ⟨_, by rw [h, hu, mapNext_next]⟩

/-- Settles O9: every instruction and every wait check answers a next state. -/
theorem everyStepAnswersANextState : Obligations.EveryStepAnswersANextState := by
  intro s
  obtain ⟨u, hu⟩ := cycle_next (hostClear s)
  exact ⟨_, by rw [step, hostTurn, hu, mapNext_next]⟩

/-! ## A placed word -/

theorem wordOfBytes_highByte_lowByte (w : Word) : wordOfBytes (highByte w) (lowByte w) = w :=
  BitVec.eq_of_toNat_eq (by rw [wordOfBytes_toNat, highByte_toNat, lowByte_toNat]; omega)

theorem withFetchWord_toNat (w : Word) (s : State) : s.withFetchWord 16 w.toNat = placeWord w s := by
  have hword : tableWord 16 w.toNat = w := BitVec.eq_of_toNat_eq (by simp [tableWord]; omega)
  rw [State.withFetchWord, hword]

theorem placeWord_pc_toNat (w : Word) (s : State) :
    (placeWord w s).pc.toNat = if s.pc.toNat ≤ 0xFFE then s.pc.toNat else 0x200 := by
  simp only [placeWord, BitVec.toNat_ofNat]
  split <;> omega

theorem placeWord_pc_le (w : Word) (s : State) : (placeWord w s).pc.toNat ≤ 0xFFE := by
  rw [placeWord_pc_toNat]
  split <;> omega

theorem placeWord_mem (w : Word) (s : State) :
    (placeWord w s).mem = (s.mem.poke (placeWord w s).pc.toNat (highByte w)).poke
      ((placeWord w s).pc.toNat + 1) (lowByte w) := by
  rw [placeWord_pc_toNat]
  rfl

theorem placeWord_readyTurn (w : Word) (s : State) : ReadyTurn (placeWord w s) := ⟨rfl, rfl, rfl⟩

/-- The two bytes placed are the two bytes fetched. -/
theorem fetch_placeWord (w : Word) {s : State} (hwf : s.mem.wf = true) : fetch (placeWord w s) = .ok w := by
  have hpc := placeWord_pc_le w s
  rw [fetch_ok hpc, placeWord_mem, byteAt_poke_other _ _ _ _ (by omega), byteAt_poke_self _ _ _ hwf,
    byteAt_poke_self _ _ _ (poke_wf _ _ _ hwf (by omega)), wordOfBytes_highByte_lowByte]

/-- Settles O8: a placed word stands at a pc that can be fetched, in a turn that is READY and not stopped. -/
theorem placedWordIsFetched : Obligations.PlacedWordIsFetched := by
  intro s w hwf
  rw [withFetchWord_toNat]
  exact ⟨fetch_placeWord w hwf, (placeWord_readyTurn w s).step_eq⟩

/-! ## HALTED and the stop -/

theorem handlerState_halted_iff (s : State) : handlerState s = .halted ↔ s.run = false := by
  unfold handlerState
  cases s.run <;> cases s.mode <;> simp

theorem handlerState_ready_iff (s : State) : handlerState s = .ready ↔ s.run = true ∧ s.mode = .ready := by
  unfold handlerState
  cases s.run <;> cases s.mode <;> simp

theorem handlerState_awaiting {s : State} {ax : Nibble} {prev : KeySet} (hrun : s.run = true)
    (hmode : s.mode = .awaitKey ax prev) : handlerState s = .awaiting := by
  simp [handlerState, hrun, hmode]

theorem handlerState_ne_halted_iff (s : State) : handlerState s ≠ .halted ↔ s.run = true := by
  simp [handlerState_halted_iff]

theorem step_halted {s : State} (hrun : s.run = false) : step s = .next (endTurn (hostClear s)) :=
  congrArg (mapNext endTurn) (cycle_halted (s := hostClear s) hrun)

/-- Settles O12: ClearDirty and the end of the turn touch none of the elements named. -/
theorem stopInputHaltsBeforeAnythingElse : Obligations.StopInputHaltsBeforeAnythingElse := by
  intro s hrun hstop
  have hstep : step s = .next (endTurn (stopRun (hostClear s))) :=
    congrArg (mapNext endTurn) (cycle_stopped (s := hostClear s) hrun hstop)
  exact ⟨cycle_stopped hrun hstop, _, hstep, rfl, rfl, rfl, rfl, rfl, rfl⟩

theorem run_succ_of_next (M : Host.Core) (n : Nat) {s t : M.State} (h : M.step s = .next t) :
    M.run (n + 1) s = M.run n t := by
  rw [Host.Core.run, h]

/-- No turn among the next `n + 1` calls ClearDirty: not the present one, and none of the `n` after it. -/
theorem noClearDirty_succ (n : Nat) (s : State) :
    ((List.range (n + 1)).all fun k => !(turnAfter k s).clearDirty) =
      (!(turn s).clearDirty && (List.range n).all fun k => !(turnAfter k (endTurn (hostClear s))).clearDirty) := by
  simp [List.range_succ_eq_map, List.all_map, Function.comp_def, turnAfter_endTurn]

/-- Settles O10: induction on the number of turns; each turn of a halted machine is a ClearDirty or none. -/
theorem haltedMachineStaysAsItIs : Obligations.HaltedMachineStaysAsItIs := by
  intro n
  induction n with
  | zero =>
    intro s hrun
    exact ⟨cycle_halted hrun, by simp [Host.Core.run]⟩
  | succ n ih =>
    intro s hrun
    obtain ⟨-, hlater⟩ := ih (endTurn (hostClear s)) hrun
    refine ⟨cycle_halted hrun, ?_⟩
    refine (run_succ_of_next core n (step_halted hrun)).trans (hlater.trans ?_)
    rw [noClearDirty_succ]
    simp [endTurn, hostClear, Bool.and_assoc, Nat.add_assoc, Nat.add_comm 1 n]

/-! ## The timer phase -/

theorem tick_toNat (t : Byte) : (tick t).toNat = t.toNat - 1 := by
  unfold tick
  split
  · next h => simp [h]
  · next h => rw [BitVec.toNat_sub_of_le (by bv_omega)]; rfl

theorem timerPhase_soundOn_iff (s : State) : (timerPhase s).soundOn = true ↔ s.st.toNat ≠ 0 := by
  simp [← BitVec.toNat_inj]

/-- The instruction or wait check of a running machine halts it by a fault and in no other way. -/
theorem runOrWait_halts {s u : State} (h : runOrWait s = .next u) (hrun : s.run = true) (hhalt : u.run = false) :
    ∃ f w, u = raiseFault f w s := by
  have hne : u.run ≠ s.run := by rw [hrun, hhalt]; decide
  cases hmode : s.mode with
  | ready =>
    rw [runOrWait_ready hmode] at h
    obtain ⟨f, w, -, hf⟩ | ⟨_, _, v, -, -, -, hv, hkept, -⟩ := executeOne_cases s
    · cases h.symm.trans hf
      exact ⟨f, w, rfl⟩
    · cases h.symm.trans hv
      exact absurd hkept hne
  | awaitKey ax prev =>
    cases h.symm.trans (runOrWait_awaitKey hmode)
    obtain ⟨v, pc, mode, hu⟩ := resumeOrWait_eq ax prev s
    exact absurd (by rw [hu]) hne

/-- Settles O13: a cycle that ends running ends with the timer phase; one that ends halted was stopped or faulted, and
neither writes a timer. -/
theorem timerPhaseEndsRunningCyclesOnly : Obligations.TimerPhaseEndsRunningCyclesOnly := by
  intro s t hrun h
  cases hstop : (turn s).stopIn with
  | true =>
    cases h.symm.trans (cycle_stopped hrun hstop)
    exact ⟨nofun, fun _ => ⟨rfl, rfl, rfl⟩⟩
  | false =>
    rw [cycle_unstopped hrun hstop] at h
    obtain ⟨u, hu, rfl⟩ := mapNext_eq_next h
    refine ⟨fun hruns => ?runs, fun hhalts => ?halts⟩
    case runs =>
      rw [closeCycle_running u (by simpa using hruns)]
      exact ⟨u, hu, tick_toNat u.dt, tick_toNat u.st, timerPhase_soundOn_iff u, rfl⟩
    case halts =>
      have hhalt : u.run = false := by simpa using hhalts
      rw [closeCycle_halted u hhalt]
      obtain ⟨f, w, rfl⟩ := runOrWait_halts hu hrun hhalt
      exact ⟨rfl, rfl, rfl⟩

/-! ## The wait for a key -/

theorem getLsbD_risingKeys {now before : KeySet} {k : Nat} (hk : k < 16) :
    (risingKeys now before).getLsbD k = true ↔ Rising now before k := by
  simp [risingKeys, Rising, hk]

/-- The wait check resumes on the lowest rising key, or goes on because there is none (R118). -/
theorem resumeOrWait_spec (ax : Nibble) (prev : KeySet) (s : State) :
    (∃ k, k < 16 ∧ Rising s.keys prev k ∧ (∀ j, j < k → ¬ Rising s.keys prev j) ∧
      resumeOrWait ax prev s = { advancePc 2 (setV ax (BitVec.ofNat 8 k) s) with mode := .ready }) ∨
    ((∀ k, k < 16 → ¬ Rising s.keys prev k) ∧ resumeOrWait ax prev s = { s with mode := .awaitKey ax s.keys }) := by
  unfold resumeOrWait
  cases hlow : lowestKey (risingKeys s.keys prev) with
  | some k =>
    obtain ⟨hk, hin, hbelow⟩ := lowestKey_some hlow
    refine .inl ⟨k, hk, (getLsbD_risingKeys hk).1 hin, fun j hj => ?_, rfl⟩
    rw [← getLsbD_risingKeys (by omega), hbelow j hj]
    decide
  | none =>
    refine .inr ⟨fun k hk => ?_, rfl⟩
    rw [← getLsbD_risingKeys hk, lowestKey_none hlow k hk]
    decide

/-- Settles O14: two keys that are both the lowest rising one are the same key. -/
theorem waitResumesOnTheLowestRisingKey : Obligations.WaitResumesOnTheLowestRisingKey := by
  intro s ax prev hrun hmode hstop
  refine ⟨_, cycle_waiting hrun hmode hstop, ?_⟩
  obtain ⟨k, hk, hrises, hbelow, hu⟩ | ⟨hnone, hu⟩ := resumeOrWait_spec ax prev (refreshKeys s) <;> rw [hu]
  · refine ⟨rfl, tick_toNat s.dt, tick_toNat s.st, timerPhase_soundOn_iff s, rfl, fun h => absurd hrises (h k hk),
      fun k' _ hrises' hbelow' => ?_⟩
    have hsame : k' = k := Nat.le_antisymm (not_lt.1 fun hlt => hbelow' k hlt hrises)
      (not_lt.1 fun hlt => hbelow k' hlt hrises')
    subst hsame
    refine ⟨rfl, by simp [PcAdvanced], fun r => ?_⟩
    have hr : getV r (setV ax (BitVec.ofNat 8 k') (refreshKeys s)) = if r = ax then BitVec.ofNat 8 k' else getV r s :=
      getV_setV ax r _ (refreshKeys s)
    refine (congrArg BitVec.toNat hr).trans ?_
    split
    · simp; omega
    · rfl
  · exact ⟨rfl, tick_toNat s.dt, tick_toNat s.st, timerPhase_soundOn_iff s, rfl, fun _ => ⟨rfl, rfl, rfl⟩,
      fun k hk hrises => absurd hrises (hnone k hk)⟩

/-! ## The handler state machine -/

/-- After an instruction that takes no fault the machine waits exactly if the instruction is FX0A (R106, R203). -/
theorem mode_after_exec {i : Instr} {s u : State} (h : exec i s = .next u) :
    (∃ x, i = .ldVxK x ∧ u.mode = .awaitKey x s.keys) ∨ ((∀ x, i ≠ .ldVxK x) ∧ u.mode = s.mode) := by
  by_cases hi : ∃ x, i = .ldVxK x
  · obtain ⟨x, rfl⟩ := hi
    cases h
    exact .inl ⟨x, rfl, rfl⟩
  · refine .inr ⟨fun x hx => hi ⟨x, hx⟩, ?_⟩
    by_contra hne
    exact hi ((effect_of_exec h).mode_changed hne)

/-- The READY rows of the table: FX0A, any other instruction, and a fault. -/
theorem ReadyTurn.handlerState_after {s u : State} (hr : ReadyTurn s) (hu : executeOne (refreshKeys s) = .next u) :
    (u.run = false → Machine.handlerState (closeCycle u) = .halted ∧ (closeCycle u).err.kind ≠ .noError) ∧
    (u.run = true → (∃ w x, fetch s = .ok w ∧ decode w = .ok (.ldVxK x)) →
      Machine.handlerState (closeCycle u) = .awaiting) ∧
    (u.run = true → (¬ ∃ w x, fetch s = .ok w ∧ decode w = .ok (.ldVxK x)) →
      Machine.handlerState (closeCycle u) = .ready) := by
  obtain ⟨f, w, hkind, hf⟩ | ⟨w, i, v, hfetch, hdec, hexec, hv, hkept, -⟩ := executeOne_cases (refreshKeys s)
  · cases hu.symm.trans hf
    exact ⟨fun _ => ⟨by simp [handlerState_halted_iff], by simpa using hkind⟩, nofun, nofun⟩
  · cases hu.symm.trans hv
    have hrun : u.run = true := hkept.trans hr.run
    rw [fetch_refreshKeys] at hfetch
    refine ⟨fun h => absurd (hrun.symm.trans h) (by decide), fun _ hwait => ?_, fun _ hother => ?_⟩
    · obtain ⟨w', x, hfetch', hdec'⟩ := hwait
      cases hfetch.symm.trans hfetch'
      cases hdec.symm.trans hdec'
      obtain ⟨y, -, hmode⟩ | ⟨hne, -⟩ := mode_after_exec hexec
      · exact handlerState_awaiting (by simpa using hrun) ((closeCycle_mode u).trans hmode)
      · exact absurd rfl (hne x)
    · obtain ⟨x, rfl, -⟩ | ⟨-, hmode⟩ := mode_after_exec hexec
      · exact absurd ⟨w, x, hfetch, hdec⟩ hother
      · rw [handlerState_ready_iff, closeCycle_run, closeCycle_mode]
        exact ⟨hrun, hmode.trans hr.ready⟩

/-- Settles O15: one clause per state of the table, and the stop. -/
theorem handlerStatesMoveAsTheTableSays : Obligations.HandlerStatesMoveAsTheTableSays := by
  intro s t h
  refine ⟨fun hs => ?halted, fun hs hstop => ?stopped, fun hs hstop => ?ready, fun ax prev hs hmode hstop => ?awaiting⟩
  case halted =>
    cases h.symm.trans (cycle_halted ((handlerState_halted_iff s).1 hs))
    rfl
  case stopped =>
    cases h.symm.trans (cycle_stopped ((handlerState_ne_halted_iff s).1 hs) hstop)
    exact ⟨rfl, rfl⟩
  case ready =>
    obtain ⟨hrun, hmode⟩ := (handlerState_ready_iff s).1 hs
    have hr : ReadyTurn s := ⟨hrun, hstop, hmode⟩
    rw [hr.cycle_eq] at h
    obtain ⟨u, hu, rfl⟩ := mapNext_eq_next h
    exact ⟨u, hu, hr.handlerState_after hu⟩
  case awaiting =>
    have hrun : s.run = true := (handlerState_ne_halted_iff s).1 (by rw [hs]; decide)
    cases h.symm.trans (cycle_waiting hrun hmode hstop)
    obtain ⟨k, hk, hrises, -, hu⟩ | ⟨hnone, hu⟩ := resumeOrWait_spec ax prev (refreshKeys s) <;> rw [hu]
    · exact ⟨fun _ => (handlerState_ready_iff _).2 ⟨hrun, rfl⟩, fun hno => absurd ⟨k, hk, hrises⟩ hno⟩
    · exact ⟨fun ⟨k, hk, hrises⟩ => absurd hrises (hnone k hk), fun _ => ⟨handlerState_awaiting hrun rfl, rfl⟩⟩

/-! ## The random input -/

/-- The state with other host turns to come. -/
def withInputs (l : List HostTurn) (s : State) : State := { s with inputs := l }

section

variable (l : List HostTurn)

theorem readBytes_withInputs (base n : Nat) (s : State) : readBytes base n (withInputs l s) = readBytes base n s := by
  induction n generalizing base with
  | zero => rfl
  | succ n ih =>
    have hread : memRead base (withInputs l s) = memRead base s := rfl
    simp only [readBytes, hread, ih]

theorem spriteBytes_withInputs (n : Nibble) (s : State) : spriteBytes n (withInputs l s) = spriteBytes n s := by
  have hbase : memBase (withInputs l s) = memBase s := rfl
  simp only [spriteBytes, readBytes_withInputs, hbase]

theorem loadRegs_withInputs (k : Nat) (bs : List Byte) (s : State) :
    loadRegs k bs (withInputs l s) = withInputs l (loadRegs k bs s) := by
  induction bs generalizing k s with
  | nil => rfl
  | cons b bs ih => exact ih (k + 1) (setV (BitVec.ofNat 4 k) b s)

theorem memWrite_withInputs (a : Nat) (v : Byte) (s : State) :
    memWrite a v (withInputs l s) = (memWrite a v s).map (withInputs l) := by
  unfold memWrite
  split
  · rfl
  · split <;> rfl

theorem writeBytes_withInputs (base : Nat) (bs : List Byte) (s : State) :
    writeBytes base bs (withInputs l s) = (writeBytes base bs s).map (withInputs l) := by
  induction bs generalizing base s with
  | nil => rfl
  | cons b bs ih =>
    rw [writeBytes, writeBytes, memWrite_withInputs]
    cases memWrite base b s with
    | error f => rfl
    | ok t => exact ih (base + 1) t

theorem finish_withInputs (w : Word) (s : State) (r : Except Raised State) :
    finish w (withInputs l s) (r.map (withInputs l)) = mapNext (withInputs l) (finish w s r) := by
  cases r <;> rfl

theorem skipIf_withInputs (c : Bool) (s : State) : skipIf c (withInputs l s) = withInputs l (skipIf c s) := by
  cases c <;> rfl

theorem execRet_withInputs (g : Byte) (s : State) :
    execRet g (withInputs l s) = mapNext (withInputs l) (execRet g s) := by
  by_cases h : 0 < s.sp.val
  · rw [execRet_ok g s h]
    exact execRet_ok g (withInputs l s) h
  · have h0 : s.sp.val = 0 := by omega
    rw [execRet_underflow g s h0]
    exact execRet_underflow g (withInputs l s) h0

theorem execCall_withInputs (n : Addr12) (s : State) :
    execCall n (withInputs l s) = mapNext (withInputs l) (execCall n s) := by
  by_cases h : s.sp.val < 16
  · rw [execCall_ok n s h]
    exact execCall_ok n (withInputs l s) h
  · have h16 : s.sp.val = 16 := by omega
    rw [execCall, execCall, pushStack_full _ s h16, pushStack_full _ (withInputs l s) h16]
    rfl

theorem execDrw_withInputs (x y n : Nibble) (s : State) :
    execDrw x y n (withInputs l s) = mapNext (withInputs l) (execDrw x y n s) := by
  rw [execDrw, execDrw, spriteBytes_withInputs]
  cases spriteBytes n s <;> rfl

theorem execSkp_withInputs (x : Nibble) (s : State) :
    execSkp x (withInputs l s) = mapNext (withInputs l) (execSkp x s) := by
  have hop : hexOperand x (withInputs l s) = hexOperand x s := rfl
  rw [execSkp, execSkp, hop]
  cases hexOperand x s with
  | error f => rfl
  | ok k => exact congrArg Host.Outcome.next (skipIf_withInputs l _ s)

theorem execSknp_withInputs (x : Nibble) (s : State) :
    execSknp x (withInputs l s) = mapNext (withInputs l) (execSknp x s) := by
  have hop : hexOperand x (withInputs l s) = hexOperand x s := rfl
  rw [execSknp, execSknp, hop]
  cases hexOperand x s with
  | error f => rfl
  | ok k => exact congrArg Host.Outcome.next (skipIf_withInputs l _ s)

theorem execLdF_withInputs (x : Nibble) (s : State) :
    execLdF x (withInputs l s) = mapNext (withInputs l) (execLdF x s) := by
  have hop : hexOperand x (withInputs l s) = hexOperand x s := rfl
  rw [execLdF, execLdF, hop]
  cases hexOperand x s <;> rfl

theorem execLdB_withInputs (x : Nibble) (s : State) :
    execLdB x (withInputs l s) = mapNext (withInputs l) (execLdB x s) := by
  have hbase : memBase (withInputs l s) = memBase s := rfl
  have hdigits : getV x (withInputs l s) = getV x s := rfl
  rw [execLdB, execLdB, hbase, hdigits, writeBytes_withInputs]
  cases checkWrite (memBase s) (memBase s + 2) with
  | error f => rfl
  | ok _ => cases writeBytes (memBase s) (bcdDigits (getV x s)) s <;> rfl

theorem execLdMemVx_withInputs (x : Nibble) (s : State) :
    execLdMemVx x (withInputs l s) = mapNext (withInputs l) (execLdMemVx x s) := by
  have hbase : memBase (withInputs l s) = memBase s := rfl
  have hregs : regsUpTo x (withInputs l s) = regsUpTo x s := rfl
  rw [execLdMemVx, execLdMemVx, hbase, hregs, writeBytes_withInputs]
  cases checkWrite (memBase s) (memBase s + x.toNat) with
  | error f => rfl
  | ok _ => cases writeBytes (memBase s) (regsUpTo x s) s <;> rfl

theorem execLdVxMem_withInputs (x : Nibble) (s : State) :
    execLdVxMem x (withInputs l s) = mapNext (withInputs l) (execLdVxMem x s) := by
  have hbase : memBase (withInputs l s) = memBase s := rfl
  rw [execLdVxMem, execLdVxMem, hbase, readBytes_withInputs]
  cases checkRead (memBase s) (memBase s + x.toNat) with
  | error f => rfl
  | ok _ =>
    cases readBytes (memBase s) (x.toNat + 1) s with
    | error f => rfl
    | ok bs => simp only [loadRegs_withInputs]; rfl

/-- No instruction but CXNN reads the host's turn (R117). -/
theorem exec_withInputs {i : Instr} (hi : ∀ x nn, i ≠ .rnd x nn) (s : State) :
    exec i (withInputs l s) = mapNext (withInputs l) (exec i s) := by
  cases i with
  | rnd x nn => exact absurd rfl (hi x nn)
  | ret g => exact execRet_withInputs l g s
  | call n => exact execCall_withInputs l n s
  | seImm | sneImm | seReg | sneReg => exact congrArg Host.Outcome.next (skipIf_withInputs l _ s)
  | drw x y n => exact execDrw_withInputs l x y n s
  | skp x => exact execSkp_withInputs l x s
  | sknp x => exact execSknp_withInputs l x s
  | ldF x => exact execLdF_withInputs l x s
  | ldB x => exact execLdB_withInputs l x s
  | ldMemVx x => exact execLdMemVx_withInputs l x s
  | ldVxMem x => exact execLdVxMem_withInputs l x s
  | _ => rfl

theorem executeOne_withInputs {s : State} (hrnd : ¬ ∃ w x nn, fetch s = .ok w ∧ decode w = .ok (.rnd x nn)) :
    executeOne (withInputs l s) = mapNext (withInputs l) (executeOne s) := by
  have hsame : fetch (withInputs l s) = fetch s := rfl
  cases hfetch : fetch s with
  | error f =>
    rw [executeOne_of_fetch_error hfetch]
    exact executeOne_of_fetch_error (hsame.trans hfetch)
  | ok w =>
    cases hdec : decode w with
    | error e =>
      rw [executeOne_of_decode_error hfetch hdec]
      exact executeOne_of_decode_error (hsame.trans hfetch) hdec
    | ok i =>
      rw [executeOne_of_decode_ok hfetch hdec, executeOne_of_decode_ok (hsame.trans hfetch) hdec]
      refine exec_withInputs l (fun x nn hi => hrnd ⟨w, x, nn, hfetch, ?_⟩) s
      rw [hdec, hi]

theorem resumeOrWait_withInputs (ax : Nibble) (prev : KeySet) (s : State) :
    resumeOrWait ax prev (withInputs l s) = withInputs l (resumeOrWait ax prev s) := by
  have hkeys : (withInputs l s).keys = s.keys := rfl
  unfold resumeOrWait
  rw [hkeys]
  cases lowestKey (risingKeys s.keys prev) <;> rfl

theorem runOrWait_withInputs {s : State}
    (hrnd : s.mode = .ready → ¬ ∃ w x nn, fetch s = .ok w ∧ decode w = .ok (.rnd x nn)) :
    runOrWait (withInputs l s) = mapNext (withInputs l) (runOrWait s) := by
  have hsame : (withInputs l s).mode = s.mode := rfl
  cases hmode : s.mode with
  | ready =>
    rw [runOrWait_ready hmode, runOrWait_ready (hsame.trans hmode)]
    exact executeOne_withInputs l (hrnd hmode)
  | awaitKey ax prev =>
    rw [runOrWait_awaitKey hmode, runOrWait_awaitKey (hsame.trans hmode), resumeOrWait_withInputs]
    rfl

theorem closeCycle_withInputs (s : State) : closeCycle (withInputs l s) = withInputs l (closeCycle s) := by
  have hsame : (withInputs l s).run = s.run := rfl
  cases hrun : s.run with
  | true => rw [closeCycle_running s hrun, closeCycle_running _ (hsame.trans hrun)]; rfl
  | false => rw [closeCycle_halted s hrun, closeCycle_halted _ (hsame.trans hrun)]; rfl

/-- A cycle whose turn brings another draw, but the same stop and keys, does the same, unless it executes CXNN. -/
theorem cycle_withInputs {s : State} (hstop : (turn (withInputs l s)).stopIn = (turn s).stopIn)
    (hkeys : (turn (withInputs l s)).keysIn = (turn s).keysIn)
    (hrnd : ReadyTurn s → ¬ ∃ w x nn, fetch s = .ok w ∧ decode w = .ok (.rnd x nn)) :
    cycle (withInputs l s) = mapNext (withInputs l) (cycle s) := by
  have hsame : (withInputs l s).run = s.run := rfl
  obtain ⟨hrun, h⟩ | ⟨hrun, hs, h⟩ | ⟨hrun, hs, h⟩ := cycle_cases s <;> rw [h]
  · exact cycle_halted hrun
  · exact cycle_stopped hrun (hstop.trans hs)
  · have hrefresh : refreshKeys (withInputs l s) = withInputs l (refreshKeys s) := by
      rw [refreshKeys, hkeys]; rfl
    obtain ⟨u, hu⟩ := runOrWait_next (refreshKeys s)
    rw [cycle_unstopped (hsame.trans hrun) (hstop.trans hs), hrefresh,
      runOrWait_withInputs l (s := refreshKeys s) fun hmode => hrnd ⟨hrun, hs, hmode⟩, hu]
    exact congrArg Host.Outcome.next (closeCycle_withInputs l u)

end

/-- A Cycle keeps the list of host turns; only the end of the turn shortens it. -/
theorem CycleOutcome.inputs {s t : State} (h : CycleOutcome s t) : t.inputs = s.inputs := by
  cases h with
  | halted | stopped => rfl
  | @waited ax prev hrun hstop hmode =>
    obtain ⟨v, pc, mode, hu⟩ := resumeOrWait_eq ax prev (refreshKeys s)
    rw [closeCycle_inputs, hu]; rfl
  | fetchFault | decodeError => rw [closeCycle_inputs]; rfl
  | executed hr hfetch hdec hexec =>
    obtain ⟨-, -, hinputs, -⟩ := (effect_of_exec hexec).frame
    rw [closeCycle_inputs, hinputs]; rfl

/-- Two lists of host turns that differ in the first draw only lead to the same step, unless it executes CXNN: the turn
that differs is used up. -/
theorem step_withInputs {l rest : List HostTurn} {s : State} {g h : HostTurn} (hl : l = g :: rest)
    (hin : s.inputs = h :: rest) (hclear : g.clearDirty = h.clearDirty) (hstop : g.stopIn = h.stopIn)
    (hkeys : g.keysIn = h.keysIn)
    (hrnd : ReadyTurn s → ¬ ∃ w x nn, fetch s = .ok w ∧ decode w = .ok (.rnd x nn)) :
    step (withInputs l s) = step s := by
  have hg : turn (withInputs l s) = g := by simp [turn, withInputs, hl]
  have hh : turn s = h := by simp [turn, hin]
  have hcleared : hostClear (withInputs l s) = withInputs l (hostClear s) := by
    rw [hostClear, hg, hclear, ← hh]; rfl
  have hcycle : cycle (withInputs l (hostClear s)) = mapNext (withInputs l) (cycle (hostClear s)) := by
    have hg' : turn (withInputs l (hostClear s)) = g := hg
    refine cycle_withInputs l ?_ ?_ fun hr => hrnd ⟨hr.run, hr.unstopped, hr.ready⟩
    · rw [hg', turn_hostClear, hh, hstop]
    · rw [hg', turn_hostClear, hh, hkeys]
  obtain ⟨u, hu⟩ := cycle_next (hostClear s)
  have hrest : u.inputs.tail = rest := by
    rw [(cycleOutcome_of_cycle hu).inputs]
    exact congrArg List.tail hin
  calc step (withInputs l s)
      = mapNext endTurn (mapNext (withInputs l) (cycle (hostClear s))) := by rw [step, hostTurn, hcleared, hcycle]
    _ = .next (endTurn (withInputs l u)) := by rw [hu]; rfl
    _ = .next (endTurn u) := by simp [endTurn, withInputs, hl, hrest]
    _ = step s := by rw [step, hostTurn, hu]; rfl

/-- Settles O17: the two turns agree in everything but the draw. -/
theorem randomInputReachesRndOnly : Obligations.RandomInputReachesRndOnly := by
  intro s h rest b hin hrnd
  have hstop : ReadyTurn s → h.stopIn = false := fun hr => by simpa [turn, hin] using hr.unstopped
  exact step_withInputs rfl hin rfl rfl rfl fun hr hw => hrnd ⟨hr.run, hr.ready, hstop hr, hw⟩

end Sys2Proof.Machine

namespace Sys2Proof.Machine

/-! # Family 0 and flow

The layer for the statements about spec/41_family0_flow.md: where each handler leaves pc, and what a failing push
records. -/

/-! ## Where pc goes -/

theorem pcAdvanced_advancePc {s u : State} (k : Nat) (hpc : u.pc = s.pc) : PcAdvanced k s (advancePc k u) := by
  rw [PcAdvanced, advancePc_pc, hpc, BitVec.toNat_ofNat]

theorem addrOperand_toNat (nnn : Addr12) : (addrOperand nnn).toNat = nnn.toNat := by
  rw [addrOperand, BitVec.toNat_setWidth, Nat.mod_eq_of_lt (by omega)]

/-- The sum of an address and a register is below 2^16, so JP V0 never wraps (R171). -/
theorem indexedTarget_toNat (nnn : Addr12) (s : State) :
    (indexedTarget nnn s).toNat = nnn.toNat + (getV 0 s).toNat := by
  rw [indexedTarget, BitVec.toNat_ofNat, Nat.mod_eq_of_lt (by omega)]

/-- A skip on `c`, said for the condition `p` that `c` tests: pc moves on by 4 or by 2, and nothing else changes
(R109). -/
theorem skipIf_result {c : Bool} {p : Prop} [Decidable p] (hc : c = true ↔ p) (s : State) :
    PcAdvanced (if p then 4 else 2) s (skipIf c s) ∧ skipIf c s = { s with pc := (skipIf c s).pc } := by
  simp only [skipIf_eq, hc]
  exact ⟨pcAdvanced_advancePc _ rfl, rfl⟩

/-! ## RET and CALL -/

theorem execCall_overflow (nnn : Addr12) (s : State) (h : s.sp.val = 16) :
    execCall nnn s = .next (raiseFault ⟨.stackOverflow, 16⟩ (some (encode (.call nnn))) s) := by
  rw [execCall, pushStack_full s.pc s h]; rfl

/-- Settles O38: the entry popped is the one below SP, and RET adds 2 to it after the jump. -/
theorem retReturnsPastTheTopEntry : Obligations.RetReturnsPastTheTopEntry := by
  refine fun g s => ⟨fun k hk hsp => ?returns, fun hempty => ?underflows⟩
  case returns =>
    have hslot : s.sp.val - 1 = k := by omega
    refine ⟨_, execRet_ok g s (by omega), hslot, ?_, rfl⟩
    simp [hslot]
  case underflows => exact execRet_underflow g s hempty

/-- Settles O40: the push writes one slot, and the value it writes is the CALL's own pc. -/
theorem callPushesItsOwnAddress : Obligations.CallPushesItsOwnAddress := by
  refine fun nnn s => ⟨fun hfree => ?pushes, fun hfull => ?overflows⟩
  case pushes =>
    refine ⟨_, execCall_ok nnn s hfree, rfl, addrOperand_toNat nnn, fun k => ?_, rfl⟩
    simp only [jumpTo_stack, Vector.getElem_set, eq_comm]
  case overflows => exact execCall_overflow nnn s hfull

/-! ## Skips, CLS and jumps -/

/-- Settles O42: each handler's test decides its condition on the unsigned values. -/
theorem skipsAdvanceByFourOrTwo : Obligations.SkipsAdvanceByFourOrTwo := by
  have beq_iff (a b : Byte) : (a == b) = true ↔ a.toNat = b.toNat := beq_iff_eq.trans BitVec.toNat_inj.symm
  have bne_iff (a b : Byte) : (a != b) = true ↔ a.toNat ≠ b.toNat := bne_iff_ne.trans BitVec.toNat_inj.symm.not
  intro x y _ nn s
  exact ⟨⟨_, rfl, skipIf_result (beq_iff (getV x s) nn) s⟩,
    ⟨_, rfl, skipIf_result (bne_iff (getV x s) nn) s⟩,
    ⟨_, rfl, skipIf_result (beq_iff (getV x s) (getV y s)) s⟩,
    ⟨_, rfl, skipIf_result (bne_iff (getV x s) (getV y s)) s⟩⟩

theorem pixel_blankFrame (px : Fin 64) (py : Fin 32) : pixel blankFrame px py = false := by
  simp [pixel, blankFrame]

/-- Settles O37: the handler's frame buffer is the blank one. -/
theorem clsBlanksEveryPixel : Obligations.ClsBlanksEveryPixel :=
  fun _ _ => ⟨_, rfl, pixel_blankFrame, rfl, pcAdvanced_advancePc 2 rfl, rfl⟩

/-- Settles O39: neither target wraps, and a jump writes pc only. -/
theorem jumpsSetPcToTheTarget : Obligations.JumpsSetPcToTheTarget :=
  fun nnn s => ⟨⟨_, rfl, addrOperand_toNat nnn, rfl⟩, ⟨_, rfl, indexedTarget_toNat nnn s, rfl⟩⟩

end Sys2Proof.Machine

namespace Sys2Proof.Machine

/-! # Register arithmetic and logic

The layer for the statements about spec/42_alu.md: what each of the two register writes leaves, and the flags and
results of the operations as numbers. -/

/-! ## The two register writes -/

theorem registerResult_of_setV {x : Nibble} {b : Byte} {value : Nat} (s : State) (hb : b.toNat = value) :
    RegisterResult x value s (advancePc 2 (setV x b s)) := by
  refine ⟨fun r => ?_, pcAdvanced_advancePc 2 rfl, rfl⟩
  rw [getV_advancePc, getV_setV, apply_ite BitVec.toNat, hb]

/-- The flag is written after the result, so it is what VF holds when x = F (R151). -/
theorem flaggedResult_of_setResultFlag {x : Nibble} {b g : Byte} {value flag : Nat} (s : State)
    (hb : b.toNat = value) (hg : g.toNat = flag) : FlaggedResult x value flag s (setResultFlag x b g s) := by
  refine ⟨fun r => ?_, pcAdvanced_advancePc 2 rfl, rfl⟩
  rw [getV_setResultFlag, apply_ite BitVec.toNat, apply_ite BitVec.toNat, hb, hg]

/-! ## Flags as numbers (R163) -/

theorem carryFlag_toNat (a b : Byte) : (carryFlag a b).toNat = if 255 < a.toNat + b.toNat then 1 else 0 := by
  simp only [carryFlag, flagByte_toNat, decide_eq_true_eq]

theorem notBorrowFlag_toNat (a b : Byte) : (notBorrowFlag a b).toNat = if a.toNat < b.toNat then 0 else 1 := by
  by_cases h : a.toNat < b.toNat <;> simp [notBorrowFlag, flagByte_toNat, h]

theorem shiftedOutRight_toNat (a : Byte) : (shiftedOutRight a).toNat = a.toNat % 2 := by
  have hbit : a.getLsbD 0 = decide (a.toNat % 2 = 1) := Nat.testBit_zero _
  simp only [shiftedOutRight, flagByte_toNat, hbit, decide_eq_true_eq]
  split <;> omega

theorem shiftedOutLeft_toNat (a : Byte) : (shiftedOutLeft a).toNat = a.toNat / 128 := by
  have hbit : a.getLsbD 7 = decide (a.toNat / 128 % 2 = 1) := Nat.testBit_eq_decide_div_mod_eq
  have hlt : a.toNat < 256 := a.isLt
  simp only [shiftedOutLeft, flagByte_toNat, hbit, decide_eq_true_eq]
  split <;> omega

/-! ## Results as numbers -/

/-- A difference of bytes wraps exactly when it borrows (R150). -/
theorem byte_sub_toNat (a b : Byte) :
    (a - b).toNat = if a.toNat < b.toNat then a.toNat + 256 - b.toNat else a.toNat - b.toNat := by
  rw [BitVec.toNat_sub]
  split <;> omega

theorem byte_ushiftRight_one_toNat (a : Byte) : (a >>> 1).toNat = a.toNat / 2 := by
  rw [BitVec.toNat_ushiftRight, Nat.shiftRight_eq_div_pow, pow_one]

theorem byte_shiftLeft_one_toNat (a : Byte) : (a <<< 1).toNat = a.toNat * 2 % 256 := by
  rw [BitVec.toNat_shiftLeft, Nat.shiftLeft_eq, pow_one]

/-! ## The handlers -/

/-- Settles O43: each handler is one register write, with no flag. -/
theorem immediatesAndMoveWriteNoFlag : Obligations.ImmediatesAndMoveWriteNoFlag :=
  fun _ _ _ s => ⟨⟨_, rfl, registerResult_of_setV s rfl⟩,
    ⟨_, rfl, registerResult_of_setV s (BitVec.toNat_add ..)⟩,
    ⟨_, rfl, registerResult_of_setV s rfl⟩⟩

/-- Settles O44: a bitwise result is the same on bytes and on their values, and the flag written is 0. -/
theorem logicOperationsClearVF : Obligations.LogicOperationsClearVF :=
  fun _ _ s => ⟨⟨_, rfl, flaggedResult_of_setResultFlag s (BitVec.toNat_or ..) rfl⟩,
    ⟨_, rfl, flaggedResult_of_setResultFlag s (BitVec.toNat_and ..) rfl⟩,
    ⟨_, rfl, flaggedResult_of_setResultFlag s (BitVec.toNat_xor ..) rfl⟩⟩

/-- Settles O45: SUBN is SUB with the operands exchanged. -/
theorem addAndSubtractSetCarryOrNotBorrow : Obligations.AddAndSubtractSetCarryOrNotBorrow :=
  fun _ _ s => ⟨⟨_, rfl, flaggedResult_of_setResultFlag s (BitVec.toNat_add ..) (carryFlag_toNat ..)⟩,
    ⟨_, rfl, flaggedResult_of_setResultFlag s (byte_sub_toNat ..) (notBorrowFlag_toNat ..)⟩,
    ⟨_, rfl, flaggedResult_of_setResultFlag s (byte_sub_toNat ..) (notBorrowFlag_toNat ..)⟩⟩

/-- Settles O46: the handlers do not read y, and the bit shifted out is the remainder or the top bit of Vx. -/
theorem shiftsSetTheBitShiftedOut : Obligations.ShiftsSetTheBitShiftedOut :=
  fun _ _ s => ⟨⟨_, rfl, flaggedResult_of_setResultFlag s (byte_ushiftRight_one_toNat _) (shiftedOutRight_toNat _)⟩,
    ⟨_, rfl, flaggedResult_of_setResultFlag s (byte_shiftLeft_one_toNat _) (shiftedOutLeft_toNat _)⟩⟩

end Sys2Proof.Machine

namespace Sys2Proof.Machine

/-! # The index load and the random draw (R170, R172)

Neither handler has a failing branch. LD I widens its address without loss, and RND is one register write of the draw
of the present host turn. -/

/-- Settles O47: the address keeps its value in I, and `advancePc` moves pc only. -/
theorem loadIndexTakesTheAddress : Obligations.LoadIndexTakesTheAddress :=
  fun nnn _ => ⟨_, rfl, addrOperand_toNat nnn, pcAdvanced_advancePc 2 rfl, rfl⟩

/-- Settles O48: the AND of two bytes is the AND of their values, for every draw. -/
theorem randomIsMaskedByTheImmediate : Obligations.RandomIsMaskedByTheImmediate :=
  fun _ _ s => ⟨_, rfl, registerResult_of_setV s (BitVec.toNat_and ..)⟩

end Sys2Proof.Machine

namespace Sys2Proof.Machine

/-! # Sprite draw

The layer for the statements about spec/44_draw.md. A row word is compared with the pixel loop column by column, and
the pixel loop with the set of pixels on which a sprite bit falls. -/

/-! ## Row words as columns (R186) -/

/-- A row word is known by its 64 columns (R28). -/
theorem rowWord_ext {a b : BitVec 64} (h : ∀ px : Fin 64, a.getLsbD (63 - px.val) = b.getLsbD (63 - px.val)) :
    a = b := by
  refine BitVec.eq_of_getLsbD_eq fun i hi => ?_
  have hcol : 63 - (63 - i) = i := by omega
  simpa only [hcol] using h ⟨63 - i, by omega⟩

theorem rowWord_ne_zero_iff (w : BitVec 64) : w ≠ 0 ↔ ∃ px : Fin 64, w.getLsbD (63 - px.val) = true := by
  constructor
  · intro hw
    by_contra hnone
    exact hw (rowWord_ext fun px => by simpa using not_exists.1 hnone px)
  · rintro ⟨px, hpx⟩ rfl
    simp at hpx

/-- A frame buffer is known by its pixels (R28). -/
theorem frameBuffer_ext {fb gb : FrameBuffer} (h : ∀ px py, pixel fb px py = pixel gb px py) : fb = gb :=
  Vector.ext fun y hy => rowWord_ext fun px => h px ⟨y, hy⟩

theorem pixel_set (fb : FrameBuffer) (py qy : Fin 32) (w : BitVec 64) (px : Fin 64) :
    pixel (fb.set py.val w) px qy = if qy = py then w.getLsbD (63 - px.val) else pixel fb px qy := by
  simp only [pixel, Vector.getElem_set, Fin.val_inj, eq_comm (a := py)]
  split <;> rfl

/-- How far column `px` lies to the right of the sprite's start, around the edge of the screen. -/
def spriteOffset (x0 : Byte) (px : Fin 64) : Nat := (px.val + 64 - x0.toNat % 64) % 64

theorem spriteOffset_lt (x0 : Byte) (px : Fin 64) : spriteOffset x0 px < 64 := Nat.mod_lt _ (by decide)

theorem eq_spriteCol_iff (x0 : Byte) (px : Fin 64) {c : Nat} (hc : c < 64) :
    px = spriteCol x0 c ↔ c = spriteOffset x0 px := by
  have hpx := px.isLt
  simp only [Fin.ext_iff, spriteCol, spriteOffset]
  omega

/-- Rotating a row word right by the start column moves each bit as far as its column (R186). -/
theorem getLsbD_rotateRight_column (w : BitVec 64) (x0 : Byte) (px : Fin 64) :
    (w.rotateRight (x0.toNat % 64)).getLsbD (63 - px.val) = w.getLsbD (63 - spriteOffset x0 px) := by
  have hpx := px.isLt
  rw [BitVec.getLsbD_rotateRight, Nat.mod_mod, cond_eq_ite]
  by_cases hwrap : px.val < x0.toNat % 64
  · have hbit : 63 - px.val - (64 - x0.toNat % 64) = 63 - spriteOffset x0 px := by rw [spriteOffset]; omega
    rw [if_neg (by simp; omega), hbit, decide_eq_true (by omega), Bool.true_and]
  · have hbit : x0.toNat % 64 + (63 - px.val) = 63 - spriteOffset x0 px := by rw [spriteOffset]; omega
    rw [if_pos (by simp; omega), hbit]

/-- Before the rotation the sprite's byte fills the eight leftmost columns, bit 7 first (R184). -/
theorem getLsbD_byte_append_zero (b : Byte) {c : Nat} (hc : c < 64) :
    (b ++ (0 : BitVec 56)).getLsbD (63 - c) = (decide (c < 8) && b.getLsbD (7 - c)) := by
  rw [BitVec.getLsbD_append]
  by_cases h8 : c < 8
  · have hbit : 63 - c - 56 = 7 - c := by omega
    rw [if_neg (by omega), hbit, decide_eq_true h8, Bool.true_and]
  · rw [if_pos (by omega), decide_eq_false h8, Bool.false_and]
    exact BitVec.getLsbD_zero

/-- The mask of a sprite row is on in the columns on which one of its set bits falls (R183, R184). -/
theorem getLsbD_rowMask (x0 b : Byte) (px : Fin 64) :
    (rowMask x0 b).getLsbD (63 - px.val) = cols8.any (bitOn x0 b px) := by
  have hoff := spriteOffset_lt x0 px
  rw [rowMask, getLsbD_rotateRight_column, getLsbD_byte_append_zero b hoff, Bool.eq_iff_iff, List.any_eq_true]
  simp only [Bool.and_eq_true, decide_eq_true_eq, mem_cols8]
  constructor
  · rintro ⟨h8, hb⟩
    exact ⟨_, h8, hb, (eq_spriteCol_iff x0 px hoff).2 rfl⟩
  · rintro ⟨c, hc, hb, hpx⟩
    rw [← (eq_spriteCol_iff x0 px (by omega)).1 hpx]
    exact ⟨hc, hb⟩

/-- A row word meets the mask where a set sprite bit falls on a pixel that is on (R185). -/
theorem and_rowMask_ne_zero_iff (x0 b : Byte) (py : Fin 32) (fb : FrameBuffer) :
    fb[py.val] &&& rowMask x0 b ≠ 0 ↔
      ∃ c, c < 8 ∧ b.getLsbD (7 - c) = true ∧ pixel fb (spriteCol x0 c) py = true := by
  simp only [rowWord_ne_zero_iff, BitVec.getLsbD_and, getLsbD_rowMask, Bool.and_eq_true, List.any_eq_true,
    mem_cols8, decide_eq_true_eq]
  constructor
  · rintro ⟨_, hon, c, hc, hb, rfl⟩
    exact ⟨c, hc, hb, hon⟩
  · rintro ⟨c, hc, hb, hon⟩
    exact ⟨_, hon, c, hc, hb, rfl⟩

/-- One read-modify-write of a row word is the pixel loop over the eight columns of a sprite row (R186). -/
theorem writeRowWord_eq_drawCols (x0 b : Byte) (py : Fin 32) (cv : Canvas) :
    writeRowWord x0 b py cv = drawCols x0 py b cols8 cv := by
  have hlt : ∀ c ∈ cols8, c < 8 := fun c hc => mem_cols8.1 hc
  refine Prod.ext (frameBuffer_ext fun px qy => ?pixels) ?collision
  case pixels =>
    rw [pixel_drawCols _ _ _ _ _ _ _ (by decide) hlt, writeRowWord, pixel_set]
    by_cases hrow : qy = py
    · simp only [hrow, if_true, BitVec.getLsbD_xor, getLsbD_rowMask, decide_true, Bool.true_and, pixel]
    · simp only [hrow, if_false, decide_false, Bool.false_and, Bool.xor_false]
  case collision =>
    rw [hit_drawCols _ _ _ _ _ (by decide) hlt, writeRowWord]
    refine congrArg (cv.2 || ·) ?_
    rw [Bool.eq_iff_iff, bne_iff_ne, and_rowMask_ne_zero_iff, List.any_eq_true]
    simp only [mem_cols8, Bool.and_eq_true]

theorem drawRowWords_eq_drawRows (x0 y0 : Byte) (r : Nat) (rows : List Byte) (cv : Canvas) :
    drawRowWords x0 y0 r rows cv = drawRows x0 y0 r rows cv := by
  induction rows generalizing r cv with
  | nil => rfl
  | cons b rows ih => rw [drawRowWords, drawRows, writeRowWord_eq_drawCols, ih]

/-- Settles O50: the two agree row by row, so on every list of rows, the short ones among them. -/
theorem rowWordDrawEqualsPixelDraw : Obligations.RowWordDrawEqualsPixelDraw :=
  fun x0 y0 rows _ _ _ => drawRowWords_eq_drawRows x0 y0 0 rows _

/-! ## The sprite's rows (R181, R182) -/

/-- The bytes at I to I + n - 1. -/
def spriteRows (n : Nibble) (s : State) : List Byte := (List.range' (memBase s) n.toNat).map s.mem.byteAt

@[simp] theorem length_spriteRows (n : Nibble) (s : State) : (spriteRows n s).length = n.toNat := by
  simp [spriteRows]

/-- A sprite is lower than the screen, so no two of its rows meet (R187). -/
theorem spriteRows_fit (n : Nibble) (s : State) : 0 + (spriteRows n s).length ≤ 32 := by
  rw [length_spriteRows]; omega

@[simp] theorem getElem_spriteRows (n : Nibble) (s : State) (k : Nat) (h : k < (spriteRows n s).length) :
    (spriteRows n s)[k] = s.mem.byteAt (s.i.toNat + k) := by
  simp [spriteRows, memBase]

theorem spriteBytes_range {n : Nibble} {s : State} (hn : 0 < n.toNat) (h : 0xFFF < memBase s + n.toNat - 1) :
    spriteBytes n s = .error ⟨.memRange, max (memBase s) 0x1000⟩ := by
  rw [spriteBytes, if_neg (by omega), checkRead_range h]

theorem spriteBytes_ok {n : Nibble} {s : State} (h : n.toNat = 0 ∨ memBase s + n.toNat - 1 ≤ 0xFFF) :
    spriteBytes n s = .ok (spriteRows n s) := by
  by_cases hn : n.toNat = 0
  · simp [spriteBytes, spriteRows, hn, readBytes]
  · have hhi : memBase s + n.toNat - 1 ≤ 0xFFF := h.resolve_left hn
    rw [spriteBytes, if_neg hn, checkRead_ok hhi]
    exact readBytes_ok _ _ _ (by omega)

/-! ## The pixel loop as a set of pixels -/

/-- What `DRW Vx, Vy, n` makes of the screen, with the collision bit. -/
def drawnCanvas (x y n : Nibble) (s : State) : Canvas :=
  drawRows (getV x s) (getV y s) 0 (spriteRows n s) (s.fb, false)

theorem spriteSets_iff (x y n : Nibble) (s : State) (px : Fin 64) (py : Fin 32) :
    SpriteSets x y n s px py ↔ ∃ k c, ∃ h : k < (spriteRows n s).length, c < 8 ∧
      (spriteRows n s)[k].getLsbD (7 - c) = true ∧
      px = spriteCol (getV x s) c ∧ py = spriteRow (getV y s) (0 + k) := by
  simp only [SpriteSets, length_spriteRows, getElem_spriteRows, exists_prop, Nat.zero_add, Fin.ext_iff, spriteCol,
    spriteRow]

theorem pixel_drawnCanvas (x y n : Nibble) (s : State) (px : Fin 64) (py : Fin 32) :
    pixel (drawnCanvas x y n s).1 px py = true ↔ ¬ (pixel s.fb px py = true ↔ SpriteSets x y n s px py) := by
  rw [drawnCanvas, pixel_drawRows _ _ _ _ _ _ _ (spriteRows_fit n s), ← spriteSets_iff]
  by_cases hset : SpriteSets x y n s px py <;> simp [hset]

theorem hit_drawnCanvas (x y n : Nibble) (s : State) :
    (drawnCanvas x y n s).2 = true ↔ ∃ px py, SpriteSets x y n s px py ∧ pixel s.fb px py = true := by
  rw [drawnCanvas, hit_drawRows _ _ _ _ _ (spriteRows_fit n s), Bool.false_or]
  simp only [decide_eq_true_eq, spriteSets_iff]
  constructor
  · rintro ⟨k, c, hk, hc, hb, hon⟩
    exact ⟨_, _, ⟨k, c, hk, hc, hb, rfl, rfl⟩, hon⟩
  · rintro ⟨_, _, ⟨k, c, hk, hc, hb, rfl, rfl⟩, hon⟩
    exact ⟨k, c, hk, hc, hb, hon⟩

/-! ## DRW -/

theorem execDrw_ok {x y n : Nibble} {s : State} (h : n.toNat = 0 ∨ memBase s + n.toNat - 1 ≤ 0xFFF) :
    execDrw x y n s = .next (putCanvas (drawnCanvas x y n s) s) := by
  rw [execDrw, spriteBytes_ok h]; rfl

theorem execDrw_range {x y n : Nibble} {s : State} (hn : 0 < n.toNat) (h : 0xFFF < memBase s + n.toNat - 1) :
    execDrw x y n s = .next (raiseFault ⟨.memRange, max (memBase s) 0x1000⟩ (some (encode (.drw x y n))) s) := by
  rw [execDrw, spriteBytes_range hn h]; rfl

theorem getV_putCanvas (r : Nibble) (cv : Canvas) (s : State) :
    getV r (putCanvas cv s) = if r = 15 then flagByte cv.2 else getV r s := by
  rw [putCanvas, getV_advancePc, getV_setVF]; rfl

theorem putCanvas_flag_toNat (cv : Canvas) (s : State) : (getV 15 (putCanvas cv s)).toNat = if cv.2 then 1 else 0 := by
  rw [getV_putCanvas, if_pos rfl, flagByte_toNat]

/-- Settles O49: the rows are read before the first pixel, and what they draw is the sprite's set of pixels. -/
theorem drawXorsTheSpriteAndDetectsCollision : Obligations.DrawXorsTheSpriteAndDetectsCollision := by
  refine fun x y n s => ⟨fun hfits => ?draws, execDrw_range⟩
  refine ⟨_, execDrw_ok hfits, pixel_drawnCanvas x y n s, fun hhit => ?hit, fun hmiss => ?miss, fun r hr => ?others,
    rfl, pcAdvanced_advancePc 2 rfl, rfl⟩
  case hit => rw [putCanvas_flag_toNat, if_pos ((hit_drawnCanvas x y n s).2 hhit)]
  case miss => rw [putCanvas_flag_toNat, if_neg (mt (hit_drawnCanvas x y n s).1 hmiss)]
  case others => rw [getV_putCanvas, if_neg hr]

end Sys2Proof.Machine

namespace Sys2Proof.Machine

/-! # Keys, timers, index arithmetic and bulk memory

The layer for the statements about spec/45_keys_timers_memory.md: one equation per handler that can fault and per range
of its operand, and what the bytes it stores or loads are. -/

/-! ## Timers (R202, R204, R205, R267) -/

/-- A READY turn whose instruction takes no fault: its state, then the tick, then the end of the turn. -/
theorem ReadyTurn.step_of_exec {s u : State} {w : Word} {i : Instr} (hr : ReadyTurn s) (hfetch : fetch s = .ok w)
    (hdec : decode w = .ok i) (hexec : exec i (refreshKeys (Machine.hostClear s)) = .next u) (hrun : u.run = true) :
    step s = .next (endTurn (timerPhase u)) := by
  rw [hr.step_eq, executeOne_of_decode_ok (s := refreshKeys (Machine.hostClear s)) hfetch hdec, hexec, mapNext_next,
    mapNext_next, closeCycle_running u hrun]

/-- Settles O18: the tick is applied to what the handler wrote, and the register FX07 wrote is not ticked. -/
theorem timerWriteIsTickedInItsOwnCycle : Obligations.TimerWriteIsTickedInItsOwnCycle := by
  intro s w x hrun hmode hstop hfetch
  have hr : ReadyTurn s := ⟨hrun, hstop, hmode⟩
  refine ⟨fun hdec => ?delay, fun hdec => ?sound, fun hdec => ?read⟩
  case delay => exact ⟨_, hr.step_of_exec hfetch hdec rfl hrun, tick_toNat (getV x s)⟩
  case sound =>
    exact ⟨_, hr.step_of_exec hfetch hdec rfl hrun, tick_toNat (getV x s),
      timerPhase_soundOn_iff { s with st := getV x s }⟩
  case read =>
    exact ⟨_, hr.step_of_exec hfetch hdec rfl hrun, getV_setV_self x s.dt (refreshKeys (hostClear s)),
      tick_toNat s.dt⟩

/-- Settles O52: FX07 is one register write, and the other two write one timer. -/
theorem timerMovesCopyTheByte : Obligations.TimerMovesCopyTheByte :=
  fun _ s => ⟨⟨_, rfl, registerResult_of_setV s rfl⟩,
    ⟨_, rfl, rfl, pcAdvanced_advancePc 2 rfl, rfl⟩,
    ⟨_, rfl, rfl, pcAdvanced_advancePc 2 rfl, rfl⟩⟩

/-! ## Hex operands: the key skips and the glyph address (R200, R201, R207) -/

section HexOperand

variable {x : Nibble} {s : State}

theorem execSkp_ok (h : (getV x s).toNat ≤ 0xF) :
    execSkp x s = .next (skipIf (keyPressed (getV x s).toNat s) s) := by
  rw [execSkp, hexOperand_ok h]; rfl

theorem execSkp_range (h : 0xF < (getV x s).toNat) :
    execSkp x s = .next (faulted .operandRange (getV x s).toNat (.skp x) s) := by
  rw [execSkp, hexOperand_range h]; rfl

theorem execSknp_ok (h : (getV x s).toNat ≤ 0xF) :
    execSknp x s = .next (skipIf (!keyPressed (getV x s).toNat s) s) := by
  rw [execSknp, hexOperand_ok h]; rfl

theorem execSknp_range (h : 0xF < (getV x s).toNat) :
    execSknp x s = .next (faulted .operandRange (getV x s).toNat (.sknp x) s) := by
  rw [execSknp, hexOperand_range h]; rfl

theorem execLdF_ok (h : (getV x s).toNat ≤ 0xF) :
    execLdF x s = .next (advancePc 2 { s with i := glyphAddr (getV x s).toNat }) := by
  rw [execLdF, hexOperand_ok h]; rfl

theorem execLdF_range (h : 0xF < (getV x s).toNat) :
    execLdF x s = .next (faulted .operandRange (getV x s).toNat (.ldF x) s) := by
  rw [execLdF, hexOperand_range h]; rfl

end HexOperand

theorem glyphAddr_toNat {d : Nat} (h : d ≤ 0xF) : (glyphAddr d).toNat = 5 * d := by
  rw [glyphAddr, BitVec.toNat_ofNat, Nat.mod_eq_of_lt (by omega)]

/-- Settles O51: SKP tests the key's bit of the snapshot, SKNP its complement. -/
theorem keySkipsReadTheSnapshot : Obligations.KeySkipsReadTheSnapshot := by
  refine fun x s => ⟨fun hkey => ⟨?skp, ?sknp⟩, fun h => ⟨execSkp_range h, execSknp_range h⟩⟩
  case skp => exact ⟨_, execSkp_ok hkey, skipIf_result Iff.rfl s⟩
  case sknp => exact ⟨_, execSknp_ok hkey, skipIf_result (by rw [keyPressed, Bool.not_eq_true']) s⟩

/-- Settles O55: the last glyph, that of digit F, ends at 0x04F. -/
theorem glyphAddressIsFiveTimesTheDigit : Obligations.GlyphAddressIsFiveTimesTheDigit := by
  refine fun x s => ⟨fun hdigit => ?_, execLdF_range⟩
  have hi := glyphAddr_toNat hdigit
  exact ⟨_, execLdF_ok hdigit, hi, by rw [advancePc_i, hi]; omega, pcAdvanced_advancePc 2 rfl, rfl⟩

/-! ## The wait for a key (R203) -/

/-- Settles O53: the entry keeps pc and Vx, and the wait check stores a rising key if there is one. -/
theorem keyWaitBeginsAndIgnoresHeldKeys : Obligations.KeyWaitBeginsAndIgnoresHeldKeys := by
  intro x s
  refine ⟨_, rfl, rfl, rfl, fun u prev hrun hmode hstop => ⟨_, cycle_waiting hrun hmode hstop, ?_⟩⟩
  obtain ⟨k, hk, hrises, -, hu⟩ | ⟨hnone, hu⟩ := resumeOrWait_spec x prev (refreshKeys u) <;> rw [hu]
  · refine ⟨fun h => absurd hrises (h k hk), fun _ => ⟨rfl, BitVec.toNat_ofNat .., k, hk, hrises, ?_⟩⟩
    refine (congrArg BitVec.toNat (getV_setV_self x (BitVec.ofNat 8 k) (refreshKeys u))).trans ?_
    rw [BitVec.toNat_ofNat, Nat.mod_eq_of_lt (by omega)]
  · exact ⟨fun _ => ⟨rfl, rfl, rfl⟩, fun ⟨k, hk, hrises⟩ => absurd hrises (hnone k hk)⟩

/-! ## Index arithmetic (R206) -/

theorem indexOverflow_toNat (i : Word) (v : Byte) :
    (indexOverflow i v).toNat = if 0xFFF < i.toNat + v.toNat then 1 else 0 := by
  simp only [indexOverflow, flagByte_toNat, decide_eq_true_eq]

/-- Settles O54: I and VF both come from the values before the instruction. -/
theorem addIndexKeepsTheSumAndFlagsOverflow : Obligations.AddIndexKeepsTheSumAndFlagsOverflow := by
  refine fun x s => ⟨_, rfl, BitVec.toNat_ofNat .., fun r => ?_, pcAdvanced_advancePc 2 rfl, rfl⟩
  rw [getV_advancePc, getV_setVF, apply_ite BitVec.toNat, indexOverflow_toNat]
  rfl

/-! ## Stores to I, I + 1, … (R208, R209) -/

theorem length_bcdDigits (v : Byte) : (bcdDigits v).length = 3 := rfl

section Stores

variable {x : Nibble} {s : State}

theorem execLdB_ok (hlo : 0x50 ≤ memBase s) (hhi : memBase s + 2 ≤ 0xFFF) :
    execLdB x s = .next (advancePc 2 { s with mem := copyBytes (memBase s) (bcdDigits (getV x s)) s.mem }) := by
  rw [execLdB, checkWrite_ok hhi hlo, writeBytes_ok _ _ s hlo (by rw [length_bcdDigits]; omega)]; rfl

theorem execLdB_range (h : 0xFFF < memBase s + 2) :
    execLdB x s = .next (faulted .memRange (max (memBase s) 0x1000) (.ldB x) s) := by
  rw [execLdB, checkWrite_range h]; rfl

theorem execLdB_protect (h : memBase s ≤ 0x04F) :
    execLdB x s = .next (faulted .memProtect (memBase s) (.ldB x) s) := by
  rw [execLdB, checkWrite_protect (by omega) (by omega)]; rfl

theorem execLdMemVx_ok (hlo : 0x50 ≤ memBase s) (hhi : memBase s + x.toNat ≤ 0xFFF) :
    execLdMemVx x s = .next (advancePc 2
      { s with mem := copyBytes (memBase s) (regsUpTo x s) s.mem, i := indexAfter x s }) := by
  rw [execLdMemVx, checkWrite_ok hhi hlo, writeBytes_ok _ _ s hlo (by rw [length_regsUpTo]; omega)]; rfl

theorem execLdMemVx_range (h : 0xFFF < memBase s + x.toNat) :
    execLdMemVx x s = .next (faulted .memRange (max (memBase s) 0x1000) (.ldMemVx x) s) := by
  rw [execLdMemVx, checkWrite_range h]; rfl

theorem execLdMemVx_protect (h : memBase s ≤ 0x04F) :
    execLdMemVx x s = .next (faulted .memProtect (memBase s) (.ldMemVx x) s) := by
  rw [execLdMemVx, checkWrite_protect (by omega) (by omega)]; rfl

/-- I stays within 16 bits after a bulk access that fits in memory. -/
theorem indexAfter_toNat (h : memBase s + x.toNat ≤ 0xFFF) : (indexAfter x s).toNat = memBase s + x.toNat + 1 := by
  rw [indexAfter, BitVec.toNat_ofNat, ← memBase, Nat.mod_eq_of_lt (by omega)]

end Stores

/-- Settles O56: the three digits are the bytes copied, and each is below 10. -/
theorem bcdStoresThreeDigits : Obligations.BcdStoresThreeDigits := by
  refine fun x s => ⟨fun hwf hlo hhi => ?stores, execLdB_range, execLdB_protect⟩
  have digit (k : Nat) (hk : k < 3) :
      ((copyBytes (memBase s) (bcdDigits (getV x s)) s.mem).byteAt (memBase s + k)).toNat =
        (bcdDigits (getV x s))[k].toNat :=
    congrArg BitVec.toNat
      (byteAt_copyBytes_inside _ k (bcdDigits (getV x s)) s.mem hwf hlo (by rw [length_bcdDigits]; omega) hk)
  refine ⟨_, execLdB_ok hlo hhi, ?hundreds, ?tens, ?ones, fun a ha => ?others, pcAdvanced_advancePc 2 rfl, rfl⟩
  case hundreds => exact (digit 0 (by decide)).trans (Nat.mod_eq_of_lt (by omega))
  case tens => exact (digit 1 (by decide)).trans (Nat.mod_eq_of_lt (by omega))
  case ones => exact (digit 2 (by decide)).trans (Nat.mod_eq_of_lt (by omega))
  case others => exact byteAt_copyBytes_outside _ a _ s.mem (by rw [length_bcdDigits]; omega)

/-- Settles O57: register r is the byte copied to I + r. -/
theorem bulkStoreWritesV0ToVx : Obligations.BulkStoreWritesV0ToVx := by
  refine fun x s => ⟨fun hwf hlo hhi => ?stores, execLdMemVx_range, execLdMemVx_protect⟩
  have hlen := length_regsUpTo x s
  refine ⟨_, execLdMemVx_ok hlo hhi, fun r hr => ?stored, fun a ha => ?others, indexAfter_toNat hhi,
    pcAdvanced_advancePc 2 rfl, rfl⟩
  case stored =>
    rw [advancePc_mem, byteAt_copyBytes_inside _ _ _ s.mem hwf hlo (by omega) (by omega), regsUpTo_get,
      BitVec.ofNat_toNat, BitVec.setWidth_eq]
  case others => exact byteAt_copyBytes_outside _ a _ s.mem (by omega)

/-! ## Loads from I, I + 1, … (R210) -/

/-- The bytes at I to I + x. -/
def bytesUpTo (x : Nibble) (s : State) : List Byte := (List.range' (memBase s) (x.toNat + 1)).map s.mem.byteAt

theorem length_bytesUpTo (x : Nibble) (s : State) : (bytesUpTo x s).length = x.toNat + 1 := by
  rw [bytesUpTo, List.length_map, List.length_range']

theorem bytesUpTo_get (x : Nibble) (s : State) (k : Nat) (h : k < (bytesUpTo x s).length) :
    (bytesUpTo x s)[k] = s.mem.byteAt (memBase s + k) := by
  simp [bytesUpTo]

theorem execLdVxMem_ok {x : Nibble} {s : State} (h : memBase s + x.toNat ≤ 0xFFF) :
    execLdVxMem x s = .next (advancePc 2
      { s with v := (loadRegs 0 (bytesUpTo x s) s).v, i := indexAfter x s }) := by
  rw [execLdVxMem, checkRead_ok h, readBytes_ok _ _ s (by omega), ← bulkLoad_eq]; rfl

theorem execLdVxMem_range {x : Nibble} {s : State} (h : 0xFFF < memBase s + x.toNat) :
    execLdVxMem x s = .next (faulted .memRange (max (memBase s) 0x1000) (.ldVxMem x) s) := by
  rw [execLdVxMem, checkRead_range h]; rfl

/-- The registers after a bulk load, VF among them when x = F. -/
theorem getV_loadRegs_bytesUpTo (x r : Nibble) (s : State) : getV r (loadRegs 0 (bytesUpTo x s) s) =
    if r.toNat ≤ x.toNat then s.mem.byteAt (memBase s + r.toNat) else getV r s := by
  have hlen := length_bytesUpTo x s
  rw [getV_loadRegs 0 _ s r (by omega)]
  by_cases hr : r.toNat ≤ x.toNat
  · rw [dif_pos (by omega), if_pos hr, bytesUpTo_get, Nat.sub_zero]
  · rw [dif_neg (by omega), if_neg hr]

/-- Settles O58: the loaded registers are V0 to Vx, and `advancePc` moves pc only. -/
theorem bulkLoadReadsV0ToVx : Obligations.BulkLoadReadsV0ToVx :=
  fun x s => ⟨fun h => ⟨_, execLdVxMem_ok h, fun r => getV_loadRegs_bytesUpTo x r s, indexAfter_toNat h,
    pcAdvanced_advancePc 2 rfl, rfl⟩, execLdVxMem_range⟩

end Sys2Proof.Machine

namespace Sys2Proof.Machine

/-! # Faults

The layer for the statements about spec/60_exceptions.md: a fault is the one effect of an instruction that halts the
machine, and the listed instructions take theirs in `faultProne`, RET with the stack emptied. -/

/-- Settles O28: the effect that halts the machine is a fault, taken in the state before the instruction. -/
theorem faultsArePrecise : Obligations.FaultsArePrecise := by
  intro i s t hrun h hhalt
  obtain ⟨hkept, -⟩ | ⟨f, hkind, rfl⟩ := (effect_of_exec h).run_err_cases
  · exact absurd (hhalt.symm.trans (hkept.trans hrun)) Bool.false_ne_true
  · exact ⟨rfl, rfl, hkind, rfl⟩

/-! ## Which instructions fault (R230, R234) -/

theorem Effect.run_err_of_not_mayFault {i : Instr} {s t : State} (he : Effect s i t) (hmay : mayFault i = false) :
    t.run = s.run ∧ t.err = s.err := by
  cases he with
  | fault f hlisted => exact absurd (hmay.symm.trans hlisted) Bool.false_ne_true
  | _ => exact ⟨rfl, rfl⟩

/-- A running state with a full stack, I behind the last byte of memory and no register that holds a hex digit. -/
def faultProne : State :=
  { State.reset with sp := 16, i := 0x1000, v := Vector.replicate 16 0xFF }

theorem getV_faultProne (x : Nibble) : 0xF < (getV x faultProne).toNat := by
  simp [getV, faultProne]

theorem memBase_faultProne (k : Nat) : 0xFFF < memBase faultProne + k := by
  have h : memBase faultProne = 0x1000 := rfl
  omega

/-- Every listed instruction but a draw of height 0 halts some running state: RET one with an empty stack, the others
`faultProne`. -/
theorem exists_exec_halts {i : Instr} (hmay : mayFault i = true) (hdraw : ∀ x y, i ≠ .drw x y 0) :
    ∃ s t : State, s.run = true ∧ exec i s = .next t ∧ t.run = false := by
  cases i with
  | ret g => exact ⟨{ faultProne with sp := 0 }, _, rfl, execRet_underflow g _ rfl, rfl⟩
  | call n => exact ⟨faultProne, _, rfl, execCall_overflow n _ rfl, rfl⟩
  | drw x y n =>
    have hn : 0 < n.toNat :=
      Nat.pos_of_ne_zero fun h0 => hdraw x y (congrArg (Instr.drw x y) (BitVec.eq_of_toNat_eq h0))
    have hend : 0xFFF < memBase faultProne + n.toNat - 1 := by
      rw [Nat.add_sub_assoc hn]
      exact memBase_faultProne _
    exact ⟨faultProne, _, rfl, execDrw_range hn hend, rfl⟩
  | skp x => exact ⟨faultProne, _, rfl, execSkp_range (getV_faultProne x), rfl⟩
  | sknp x => exact ⟨faultProne, _, rfl, execSknp_range (getV_faultProne x), rfl⟩
  | ldF x => exact ⟨faultProne, _, rfl, execLdF_range (getV_faultProne x), rfl⟩
  | ldB x => exact ⟨faultProne, _, rfl, execLdB_range (memBase_faultProne 2), rfl⟩
  | ldMemVx x => exact ⟨faultProne, _, rfl, execLdMemVx_range (memBase_faultProne x.toNat), rfl⟩
  | ldVxMem x => exact ⟨faultProne, _, rfl, execLdVxMem_range (memBase_faultProne x.toNat), rfl⟩
  | _ => cases hmay

/-- Settles O29: only the effect `fault` writes the record, and it carries the proof that its instruction is listed. -/
theorem onlyListedInstructionsFault : Obligations.OnlyListedInstructionsFault :=
  ⟨fun _ _ _ hmay h => (effect_of_exec h).run_err_of_not_mayFault hmay, fun _ => exists_exec_halts⟩

end Sys2Proof.Machine

namespace Sys2Proof.Machine

/-! # Failed loads

The layer for the statement about a load that cannot complete (spec/70_reset_and_hazards.md, R262): both failures are
`loadFail` of the cleared state, which is the state that an empty ROM leaves. -/

theorem construct_empty (font : Vector Byte 80) : construct font (.bytes []) = cleared font :=
  construct_fits font [] (Nat.zero_le _)

theorem construct_readFailure (font : Vector Byte 80) : construct font .readFailure = loadFail 0 (cleared font) := rfl

/-- The record stands at the pc of reset, and `loadFail` writes only the record and run. -/
theorem loadFail_cleared (n : Nat) (font : Vector Byte 80) : loadFail n (cleared font) =
    { construct font (.bytes []) with
      err := { kind := .romLoad, pc := 0x200, word := none, info := n }, run := false } := by
  rw [construct_empty]
  rfl

/-- Settles O31: each failure is `loadFail` of the cleared state, with info 0 or the ROM's length. -/
theorem failedLoadHaltsBeforeAnyCopy : Obligations.FailedLoadHaltsBeforeAnyCopy := by
  intro font b
  refine ⟨?readFailure, fun hlong => ?tooLong⟩
  case readFailure => rw [construct_readFailure, loadFail_cleared]
  case tooLong => rw [construct_tooLong font b hlong, loadFail_cleared]

end Sys2Proof.Machine
